-- ==== Sys2Proof/Word.lean ====
section
/-! DEFINITION. The word types of the machine: bytes, 16-bit words, 12-bit immediates and register indices. -/

namespace Sys2Proof

/-- An 8-bit unsigned value: a memory byte, a general register, a timer, the immediate `kk` (R6, R21, R28, R71). -/
abbrev Byte := BitVec 8

/-- A 16-bit unsigned value: an instruction word, `I`, `pc`, a stack entry (R6, R24, R25, R27, R70). -/
abbrev Word := BitVec 16

/-- The 12-bit immediate `nnn` (R71). -/
abbrev Imm12 := BitVec 12

/-- The 4-bit immediate `n` of Dxyn, a sprite height 0 to 15 (R71, R73). -/
abbrev Nibble := BitVec 4

/-- The index of a general register, V0 to VF, or of a key, 0x0 to 0xF (R21, R31): a name, not a bit pattern. -/
abbrev Reg := Fin 16

end Sys2Proof
end

