-- ==== Sys2Proof/Syntax.lean ====
section
/-! DEFINITION. The instructions: one constructor per row of spec/opcode_table.json, the no-op class among them (R76, R77). -/

namespace Sys2Proof

/-- The 34 instructions of R76 in the order of its table, and the no-op class of R77.
The operands are those of R73; a word of the no-op class carries itself. -/
inductive Instr where
  /-- 00E0, CLS: clear the framebuffer (R141). -/
  | cls
  /-- 00EE, RET: return from subroutine (R100). -/
  | ret
  /-- 1nnn, JP nnn: jump (R101). -/
  | jp (nnn : Imm12)
  /-- 2nnn, CALL nnn: call subroutine (R102). -/
  | call (nnn : Imm12)
  /-- 3xkk, SE Vx, kk: skip if equal to immediate (R104). -/
  | seVxKk (x : Reg) (kk : Byte)
  /-- 4xkk, SNE Vx, kk: skip if not equal to immediate (R105). -/
  | sneVxKk (x : Reg) (kk : Byte)
  /-- 5xy0, SE Vx, Vy: skip if registers equal (R106). -/
  | seVxVy (x y : Reg)
  /-- 6xkk, LD Vx, kk: load immediate (R111). -/
  | ldVxKk (x : Reg) (kk : Byte)
  /-- 7xkk, ADD Vx, kk: add immediate, no flag (R112). -/
  | addVxKk (x : Reg) (kk : Byte)
  /-- 8xy0, LD Vx, Vy: copy (R113). -/
  | ldVxVy (x y : Reg)
  /-- 8xy1, OR Vx, Vy (R114). -/
  | orVxVy (x y : Reg)
  /-- 8xy2, AND Vx, Vy (R115). -/
  | andVxVy (x y : Reg)
  /-- 8xy3, XOR Vx, Vy (R116). -/
  | xorVxVy (x y : Reg)
  /-- 8xy4, ADD Vx, Vy: add with carry out (R117). -/
  | addVxVy (x y : Reg)
  /-- 8xy5, SUB Vx, Vy (R118). -/
  | subVxVy (x y : Reg)
  /-- 8xy6, SHR Vx: shift right by one; `y` is in the word and ignored (R120). -/
  | shrVx (x y : Reg)
  /-- 8xy7, SUBN Vx, Vy: reverse subtract (R121). -/
  | subnVxVy (x y : Reg)
  /-- 8xyE, SHL Vx: shift left by one; `y` is in the word and ignored (R122). -/
  | shlVx (x y : Reg)
  /-- 9xy0, SNE Vx, Vy: skip if registers differ (R107). -/
  | sneVxVy (x y : Reg)
  /-- Annn, LD I, nnn: load index (R131). -/
  | ldI (nnn : Imm12)
  /-- Bnnn, JP V0, nnn: jump with offset (R103). -/
  | jpV0 (nnn : Imm12)
  /-- Cxkk, RND Vx, kk: random AND immediate (R124). -/
  | rnd (x : Reg) (kk : Byte)
  /-- Dxyn, DRW Vx, Vy, n: XOR-draw a sprite (R142). -/
  | drw (x y : Reg) (n : Nibble)
  /-- Ex9E, SKP Vx: skip if key pressed (R151). -/
  | skp (x : Reg)
  /-- ExA1, SKNP Vx: skip if key not pressed (R152). -/
  | sknp (x : Reg)
  /-- Fx07, LD Vx, DT: read the delay timer (R154). -/
  | ldVxDt (x : Reg)
  /-- Fx0A, LD Vx, K: wait for a key (R153). -/
  | ldVxK (x : Reg)
  /-- Fx15, LD DT, Vx: set the delay timer (R155). -/
  | ldDtVx (x : Reg)
  /-- Fx18, LD ST, Vx: set the sound timer (R156). -/
  | ldStVx (x : Reg)
  /-- Fx1E, ADD I, Vx: add register to index (R132). -/
  | addI (x : Reg)
  /-- Fx29, LD F, Vx: point I at a font glyph (R133). -/
  | ldF (x : Reg)
  /-- Fx33, LD B, Vx: store binary-coded decimal (R134). -/
  | ldB (x : Reg)
  /-- Fx55, LD [I], Vx: store registers V0 to Vx (R136). -/
  | ldIVx (x : Reg)
  /-- Fx65, LD Vx, [I]: load registers V0 to Vx (R137). -/
  | ldVxI (x : Reg)
  /-- Any other word: a no-op (R77, R160). -/
  | nop (w : Word)
  deriving DecidableEq, Repr

end Sys2Proof
end

