-- ==== Sys2Proof/WellFormed.lean ====
section
/-! DEFINITION. Which instruction terms stand for a word of the machine: every operand is a legal one (R73), and a no-op
term must carry a word of R77's list. -/

namespace Sys2Proof

/-- R77's exhaustive list of the no-op words, group by group, on the word as a number. -/
def isNopWord (w : Word) : Bool :=
  let op := w.toNat
  let n := op % 16
  let kk := op % 256
  match op / 4096 with
  | 0x0 => op != 0x00E0 && op != 0x00EE
  | 0x5 => n != 0
  | 0x8 => n == 0x8 || n == 0x9 || n == 0xA || n == 0xB || n == 0xC || n == 0xD || n == 0xF
  | 0x9 => n != 0
  | 0xE => kk != 0x9E && kk != 0xA1
  | 0xF => kk != 0x07 && kk != 0x0A && kk != 0x15 && kk != 0x18 && kk != 0x1E && kk != 0x29 && kk != 0x33 && kk != 0x55
      && kk != 0x65
  | _ => false

/-- An instruction term stands for a word. All 16 register indices and all immediates are legal in every instruction (R73);
only the no-op class has a condition: its word is one of R77's. -/
def Instr.wellFormed : Instr → Bool
  | .cls | .ret => true
  | .jp _ | .call _ | .ldI _ | .jpV0 _ => true
  | .seVxKk _ _ | .sneVxKk _ _ | .ldVxKk _ _ | .addVxKk _ _ | .rnd _ _ => true
  | .seVxVy _ _ | .sneVxVy _ _ | .ldVxVy _ _ | .orVxVy _ _ | .andVxVy _ _ | .xorVxVy _ _ => true
  | .addVxVy _ _ | .subVxVy _ _ | .shrVx _ _ | .subnVxVy _ _ | .shlVx _ _ => true
  | .drw _ _ _ => true
  | .skp _ | .sknp _ | .ldVxDt _ | .ldVxK _ | .ldDtVx _ | .ldStVx _ => true
  | .addI _ | .ldF _ | .ldB _ | .ldIVx _ | .ldVxI _ => true
  | .nop w => isNopWord w

end Sys2Proof
end

