-- ==== Sys2Proof/Decode.lean ====
section
/-! DEFINITION. The decoder (R71, R74 to R77), total on every word, the decoder of a byte sequence, which rejects by name,
the opcode map of R76 as a table, and the encoder. -/

namespace Sys2Proof

/-- The seven fields of R71, computed for every word. -/
structure Fields where
  opcode : Word
  group : Nibble
  x : Reg
  y : Reg
  n : Nibble
  kk : Byte
  nnn : Imm12
  deriving DecidableEq, Repr

/-- A 4-bit field as the register (or key) it names (R71, R73). -/
def regOfBits (b : BitVec 4) : Reg := b.toFin

/-- The 4-bit field that names a register. -/
def bitsOfReg (r : Reg) : BitVec 4 := BitVec.ofFin r

/-- R71's split of the word: group = op[15:12], x = op[11:8], y = op[7:4], n = op[3:0], kk = op[7:0], nnn = op[11:0]. -/
def fields (op : Word) : Fields :=
  { opcode := op
    group := op.extractLsb' 12 4
    x := regOfBits (op.extractLsb' 8 4)
    y := regOfBits (op.extractLsb' 4 4)
    n := op.extractLsb' 0 4
    kk := op.extractLsb' 0 8
    nnn := op.extractLsb' 0 12 }

/-- Group 0x0 compares the full word (R74). -/
def decodeGroup0 (op : Word) : Instr :=
  if op = 0x00E0#16 then .cls else if op = 0x00EE#16 then .ret else .nop op

/-- Group 0x8 selects on `n` (R74, R76 rows 10 to 18). -/
def decodeGroup8 (op : Word) (f : Fields) : Instr :=
  if f.n = 0x0#4 then .ldVxVy f.x f.y
  else if f.n = 0x1#4 then .orVxVy f.x f.y
  else if f.n = 0x2#4 then .andVxVy f.x f.y
  else if f.n = 0x3#4 then .xorVxVy f.x f.y
  else if f.n = 0x4#4 then .addVxVy f.x f.y
  else if f.n = 0x5#4 then .subVxVy f.x f.y
  else if f.n = 0x6#4 then .shrVx f.x f.y
  else if f.n = 0x7#4 then .subnVxVy f.x f.y
  else if f.n = 0xE#4 then .shlVx f.x f.y
  else .nop op

/-- Group 0xE selects on `kk` (R74, R76 rows 24 and 25). -/
def decodeGroupE (op : Word) (f : Fields) : Instr :=
  if f.kk = 0x9E#8 then .skp f.x else if f.kk = 0xA1#8 then .sknp f.x else .nop op

/-- Group 0xF selects on `kk` (R74, R76 rows 26 to 34). -/
def decodeGroupF (op : Word) (f : Fields) : Instr :=
  if f.kk = 0x07#8 then .ldVxDt f.x
  else if f.kk = 0x0A#8 then .ldVxK f.x
  else if f.kk = 0x15#8 then .ldDtVx f.x
  else if f.kk = 0x18#8 then .ldStVx f.x
  else if f.kk = 0x1E#8 then .addI f.x
  else if f.kk = 0x29#8 then .ldF f.x
  else if f.kk = 0x33#8 then .ldB f.x
  else if f.kk = 0x55#8 then .ldIVx f.x
  else if f.kk = 0x65#8 then .ldVxI f.x
  else .nop op

/-- The decoder: first by group, then by `n`, `kk` or the full word (R74); total (R75); no match is a no-op (R77). -/
def decode (op : Word) : Instr :=
  let f := fields op
  if f.group = 0x0#4 then decodeGroup0 op
  else if f.group = 0x1#4 then .jp f.nnn
  else if f.group = 0x2#4 then .call f.nnn
  else if f.group = 0x3#4 then .seVxKk f.x f.kk
  else if f.group = 0x4#4 then .sneVxKk f.x f.kk
  else if f.group = 0x5#4 then (if f.n = 0x0#4 then .seVxVy f.x f.y else .nop op)
  else if f.group = 0x6#4 then .ldVxKk f.x f.kk
  else if f.group = 0x7#4 then .addVxKk f.x f.kk
  else if f.group = 0x8#4 then decodeGroup8 op f
  else if f.group = 0x9#4 then (if f.n = 0x0#4 then .sneVxVy f.x f.y else .nop op)
  else if f.group = 0xA#4 then .ldI f.nnn
  else if f.group = 0xB#4 then .jpV0 f.nnn
  else if f.group = 0xC#4 then .rnd f.x f.kk
  else if f.group = 0xD#4 then .drw f.x f.y f.n
  else if f.group = 0xE#4 then decodeGroupE op f
  else decodeGroupF op f

/-- The word of two fetched bytes, the lower address in bits 15:8 (R53). -/
def wordOfBytes (hi lo : Byte) : Word := hi ++ lo

/-- The two bytes of a word as they lie in memory, ascending addresses (R53). -/
def bytesOfWord (w : Word) : Byte × Byte := (w.extractLsb' 8 8, w.extractLsb' 0 8)

/-- Why a byte sequence holds no instruction: it is too short. No word of two bytes is rejected (R75). -/
inductive DecodeError where
  | truncated (bytesLeft : Nat)
  deriving DecidableEq, Repr

/-- The instruction at the front of a byte sequence and the rest; every instruction is two bytes (R70). -/
def decodeBytes : List Byte → Except DecodeError (Instr × List Byte)
  | hi :: lo :: rest => .ok (decode (wordOfBytes hi lo), rest)
  | bytes => .error (.truncated bytes.length)

/-- Format NNN of R72. -/
def encodeNNN (group : Nibble) (nnn : Imm12) : Word := group ++ nnn

/-- Format XKK of R72; format XS is this with a fixed selector `kk`. -/
def encodeXKK (group : Nibble) (x : Reg) (kk : Byte) : Word := group ++ (bitsOfReg x ++ kk)

/-- Format XYN of R72; format XY is this with a fixed selector `n`. -/
def encodeXYN (group : Nibble) (x y : Reg) (n : Nibble) : Word := group ++ (bitsOfReg x ++ (bitsOfReg y ++ n))

/-- The word of an instruction, from R72's formats and R76's table. -/
def encode : Instr → Word
  | .cls => 0x00E0#16
  | .ret => 0x00EE#16
  | .jp nnn => encodeNNN 0x1#4 nnn
  | .call nnn => encodeNNN 0x2#4 nnn
  | .seVxKk x kk => encodeXKK 0x3#4 x kk
  | .sneVxKk x kk => encodeXKK 0x4#4 x kk
  | .seVxVy x y => encodeXYN 0x5#4 x y 0x0#4
  | .ldVxKk x kk => encodeXKK 0x6#4 x kk
  | .addVxKk x kk => encodeXKK 0x7#4 x kk
  | .ldVxVy x y => encodeXYN 0x8#4 x y 0x0#4
  | .orVxVy x y => encodeXYN 0x8#4 x y 0x1#4
  | .andVxVy x y => encodeXYN 0x8#4 x y 0x2#4
  | .xorVxVy x y => encodeXYN 0x8#4 x y 0x3#4
  | .addVxVy x y => encodeXYN 0x8#4 x y 0x4#4
  | .subVxVy x y => encodeXYN 0x8#4 x y 0x5#4
  | .shrVx x y => encodeXYN 0x8#4 x y 0x6#4
  | .subnVxVy x y => encodeXYN 0x8#4 x y 0x7#4
  | .shlVx x y => encodeXYN 0x8#4 x y 0xE#4
  | .sneVxVy x y => encodeXYN 0x9#4 x y 0x0#4
  | .ldI nnn => encodeNNN 0xA#4 nnn
  | .jpV0 nnn => encodeNNN 0xB#4 nnn
  | .rnd x kk => encodeXKK 0xC#4 x kk
  | .drw x y n => encodeXYN 0xD#4 x y n
  | .skp x => encodeXKK 0xE#4 x 0x9E#8
  | .sknp x => encodeXKK 0xE#4 x 0xA1#8
  | .ldVxDt x => encodeXKK 0xF#4 x 0x07#8
  | .ldVxK x => encodeXKK 0xF#4 x 0x0A#8
  | .ldDtVx x => encodeXKK 0xF#4 x 0x15#8
  | .ldStVx x => encodeXKK 0xF#4 x 0x18#8
  | .addI x => encodeXKK 0xF#4 x 0x1E#8
  | .ldF x => encodeXKK 0xF#4 x 0x29#8
  | .ldB x => encodeXKK 0xF#4 x 0x33#8
  | .ldIVx x => encodeXKK 0xF#4 x 0x55#8
  | .ldVxI x => encodeXKK 0xF#4 x 0x65#8
  | .nop w => w

/-- One row of R76: a word `op` is the row's instruction exactly when `op AND mask = match`. -/
structure OpcodeRow where
  mask : Word
  pattern : Word
  deriving DecidableEq, Repr

/-- The mask and match that R76 gives an instruction's row; the no-op class is the default row, which fixes no bit. -/
def opcodeRow : Instr → OpcodeRow
  | .cls => ⟨0xFFFF, 0x00E0⟩
  | .ret => ⟨0xFFFF, 0x00EE⟩
  | .jp _ => ⟨0xF000, 0x1000⟩
  | .call _ => ⟨0xF000, 0x2000⟩
  | .seVxKk _ _ => ⟨0xF000, 0x3000⟩
  | .sneVxKk _ _ => ⟨0xF000, 0x4000⟩
  | .seVxVy _ _ => ⟨0xF00F, 0x5000⟩
  | .ldVxKk _ _ => ⟨0xF000, 0x6000⟩
  | .addVxKk _ _ => ⟨0xF000, 0x7000⟩
  | .ldVxVy _ _ => ⟨0xF00F, 0x8000⟩
  | .orVxVy _ _ => ⟨0xF00F, 0x8001⟩
  | .andVxVy _ _ => ⟨0xF00F, 0x8002⟩
  | .xorVxVy _ _ => ⟨0xF00F, 0x8003⟩
  | .addVxVy _ _ => ⟨0xF00F, 0x8004⟩
  | .subVxVy _ _ => ⟨0xF00F, 0x8005⟩
  | .shrVx _ _ => ⟨0xF00F, 0x8006⟩
  | .subnVxVy _ _ => ⟨0xF00F, 0x8007⟩
  | .shlVx _ _ => ⟨0xF00F, 0x800E⟩
  | .sneVxVy _ _ => ⟨0xF00F, 0x9000⟩
  | .ldI _ => ⟨0xF000, 0xA000⟩
  | .jpV0 _ => ⟨0xF000, 0xB000⟩
  | .rnd _ _ => ⟨0xF000, 0xC000⟩
  | .drw _ _ _ => ⟨0xF000, 0xD000⟩
  | .skp _ => ⟨0xF0FF, 0xE09E⟩
  | .sknp _ => ⟨0xF0FF, 0xE0A1⟩
  | .ldVxDt _ => ⟨0xF0FF, 0xF007⟩
  | .ldVxK _ => ⟨0xF0FF, 0xF00A⟩
  | .ldDtVx _ => ⟨0xF0FF, 0xF015⟩
  | .ldStVx _ => ⟨0xF0FF, 0xF018⟩
  | .addI _ => ⟨0xF0FF, 0xF01E⟩
  | .ldF _ => ⟨0xF0FF, 0xF029⟩
  | .ldB _ => ⟨0xF0FF, 0xF033⟩
  | .ldIVx _ => ⟨0xF0FF, 0xF055⟩
  | .ldVxI _ => ⟨0xF0FF, 0xF065⟩
  | .nop _ => ⟨0x0000, 0x0000⟩

/-- A word matches a row (R76). -/
def OpcodeRow.matches (r : OpcodeRow) (op : Word) : Bool := op &&& r.mask == r.pattern

/-- The 34 rows of R76, in its order. -/
def opcodeMap : List OpcodeRow :=
  [⟨0xFFFF, 0x00E0⟩, ⟨0xFFFF, 0x00EE⟩, ⟨0xF000, 0x1000⟩, ⟨0xF000, 0x2000⟩, ⟨0xF000, 0x3000⟩, ⟨0xF000, 0x4000⟩,
   ⟨0xF00F, 0x5000⟩, ⟨0xF000, 0x6000⟩, ⟨0xF000, 0x7000⟩, ⟨0xF00F, 0x8000⟩, ⟨0xF00F, 0x8001⟩, ⟨0xF00F, 0x8002⟩,
   ⟨0xF00F, 0x8003⟩, ⟨0xF00F, 0x8004⟩, ⟨0xF00F, 0x8005⟩, ⟨0xF00F, 0x8006⟩, ⟨0xF00F, 0x8007⟩, ⟨0xF00F, 0x800E⟩,
   ⟨0xF00F, 0x9000⟩, ⟨0xF000, 0xA000⟩, ⟨0xF000, 0xB000⟩, ⟨0xF000, 0xC000⟩, ⟨0xF000, 0xD000⟩] ++
  [⟨0xF0FF, 0xE09E⟩, ⟨0xF0FF, 0xE0A1⟩, ⟨0xF0FF, 0xF007⟩, ⟨0xF0FF, 0xF00A⟩, ⟨0xF0FF, 0xF015⟩, ⟨0xF0FF, 0xF018⟩,
   ⟨0xF0FF, 0xF01E⟩, ⟨0xF0FF, 0xF029⟩, ⟨0xF0FF, 0xF033⟩, ⟨0xF0FF, 0xF055⟩, ⟨0xF0FF, 0xF065⟩]

/-- The instruction the decoder reads from an instruction whose bits are `w`, as spec/opcode_table.json numbers them; bits at
and above `nbits` are 0. The word is laid out big-endian (R53) and given to `decodeBytes`. -/
def decodeTableWord (nbits w : Nat) : Option Instr :=
  let bytes := bytesOfWord (BitVec.ofNat 16 (w % 2 ^ nbits))
  match decodeBytes [bytes.1, bytes.2] with
  | .ok (i, _) => some i
  | .error _ => none

end Sys2Proof
end

