-- ==== Sys2Proof/Config.lean ====
section
/-! DEFINITION. What is fixed for the machine: the sizes of R6, the kinds of reading of an instruction whose operand is VF (U1 of
spec/93), and the free values: opaque constants without a body, so that a claim holds whatever they are. -/

namespace Sys2Proof

/-- MEM_SIZE of R6: 4096 bytes, addresses 0x000 to 0xFFF. -/
def Config.memSize : Nat := 4096

/-- PROGRAM_BASE of R6: where `loadProgram` puts byte 0 and where execution starts. -/
def Config.programBase : Nat := 0x200

/-- MAX_PROGRAM of R6: 4096 - 0x200 bytes. -/
def Config.maxProgram : Nat := 3584

/-- The three readings of a row that writes VF as a flag and names VF as an operand (U1 of spec/93). -/
inductive Config.AliasReading where
  /-- S, the spec's (R110): statements in order, each reads what the earlier ones left. -/
  | sequential
  /-- L: operands latched at the start, writes in the row's order (flag first, result last). -/
  | latched
  /-- F: operands latched, result written first, flag last. -/
  | flagLast
  deriving DecidableEq, Repr

/-- The random byte of the `n`-th draw since the model's counter was 0 (R124, U4): any value, supplied from outside. A free
value: log entry 4. -/
opaque Config.randomByte (n : Nat) : Byte

/-- What `pc` holds after the `n`-th fault (R206c): unspecified. A free value: log entry 7. -/
opaque Config.faultPc (n : Nat) : Word

/-- What register `i`, when in the footprint of the `n`-th fault, holds after it (R206c). A free value: log entry 7. -/
opaque Config.faultReg (n : Nat) (i : Nat) : Byte

/-- What the byte at address `a`, when in the footprint of the `n`-th fault, holds after it (R206c). A free value: log
entry 7. -/
opaque Config.faultMem (n : Nat) (a : Nat) : Byte

/-- What the cell (cx, cy), when in the footprint of the `n`-th fault, holds after it (R206c). A free value: log entry 7. -/
opaque Config.faultCell (n : Nat) (cx cy : Nat) : Bool

/-- What `dirty`, when in the footprint of the `n`-th fault, holds after it (R206c). A free value: log entry 7. -/
opaque Config.faultDirty (n : Nat) : Bool

end Sys2Proof
end

