-- ==== Sys2Proof/Machine/Params.lean ====
section
/-! DEFINITION. The parameters the spec names and gives a default, a decision or a recommendation for (R7, R14, R181): FONT,
FONT_BASE, RESET_DIRTY and the reading of instructions whose operand is VF. -/

namespace Sys2Proof.Machine

/-- FONT_BASE (R7, R133; the spec's decision D9). -/
def Params.fontBase : Nat := 0x50

/-- FONT: the 80 glyph bytes, 16 glyphs of 5 (R58). PRESUMED: the bytes are the spec's default, from general knowledge (D8).
Unsafe for a claim about glyph shapes: log entry 1. -/
def Params.font : List Byte :=
  [0xF0, 0x90, 0x90, 0x90, 0xF0] ++ [0x20, 0x60, 0x20, 0x20, 0x70] ++ [0xF0, 0x10, 0xF0, 0x80, 0xF0] ++
  [0xF0, 0x10, 0xF0, 0x10, 0xF0] ++ [0x90, 0x90, 0xF0, 0x10, 0x10] ++ [0xF0, 0x80, 0xF0, 0x10, 0xF0] ++
  [0xF0, 0x80, 0xF0, 0x90, 0xF0] ++ [0xF0, 0x10, 0x20, 0x40, 0x40] ++ [0xF0, 0x90, 0xF0, 0x90, 0xF0] ++
  [0xF0, 0x90, 0xF0, 0x10, 0xF0] ++ [0xF0, 0x90, 0xF0, 0x90, 0x90] ++ [0xE0, 0x90, 0xE0, 0x90, 0xE0] ++
  [0xF0, 0x80, 0x80, 0x80, 0xF0] ++ [0xE0, 0x90, 0x90, 0x90, 0xE0] ++ [0xF0, 0x80, 0xF0, 0x80, 0xF0] ++
  [0xF0, 0x80, 0xF0, 0x80, 0x80]

/-- RESET_DIRTY (R7, R30, R41): open in the spec (D7). DESIGN CHOICE: the recommended value 1. Unsafe for a claim about the flag
between a reset and the first 00E0, Dxyn or consumeDirtyFramebuffer: log entry 2. -/
def Params.resetDirty : Bool := true

/-- The reading of a row that writes VF as a flag and names VF as an operand: S, the spec's own decision (R110, D4). DEDUCED
by the spec from the order of the source's statements. Unsafe for 8xy5, 8xy6, 8xy7, 8xyE and Dxyn with x or y = 0xF:
log entry 3. -/
def Params.aliasReading : Config.AliasReading := .sequential

end Sys2Proof.Machine
end

