-- ==== Sys2Proof/Machine/Memory.lean ====
section
/-! DEFINITION. The memory of 4096 bytes as plain data: a list of (address, byte) pairs in one canonical form, and its reads
and writes. Bounds are checked by the operations of Machine/Ops.lean, not here. -/

namespace Sys2Proof.Machine

/-- The bytes that differ from what an unlisted address reads as, sorted by address. -/
abbrev Memory := List Host.Cell

/-- What an unlisted address reads as: the contents after reset (R41, R56): FONT at FONT_BASE, zero everywhere else. -/
def Memory.background (a : Nat) : Byte :=
  if Params.fontBase ≤ a then Params.font.getD (a - Params.fontBase) 0 else 0

/-- The byte at an address (R55: the last value written). -/
def Memory.read : Memory → Nat → Byte
  | [], a => Memory.background a
  | (b, v) :: m, a => if a = b then v else Memory.read m a

/-- Puts a pair in front, unless an unlisted address reads the same. -/
def Memory.cons (a : Nat) (v : Byte) (m : Memory) : Memory :=
  if v = Memory.background a then m else (a, v) :: m

/-- The memory with one byte changed (R55); the canonical form is kept. -/
def Memory.write : Memory → Nat → Byte → Memory
  | [], a, v => Memory.cons a v []
  | (b, w) :: m, a, v =>
    if a < b then Memory.cons a v ((b, w) :: m)
    else if a = b then Memory.cons a v m
    else (b, w) :: Memory.write m a v

/-- Bytes written one after the other at ascending addresses. -/
def Memory.writeList : Memory → Nat → List Byte → Memory
  | m, _, [] => m
  | m, a, v :: vs => Memory.writeList (Memory.write m a v) (a + 1) vs

/-- The canonical form, read from an address on: listed addresses rise strictly, none is below `lo` or outside the 4096
bytes, none is listed with the value an unlisted address reads as. -/
def Memory.wfFrom : Nat → Memory → Bool
  | _, [] => true
  | lo, (a, v) :: m =>
    decide (lo ≤ a) && decide (a < Config.memSize) && decide (v ≠ Memory.background a) && Memory.wfFrom (a + 1) m

/-- The canonical form holds: equal memories are then equal lists. -/
def Memory.wf (m : Memory) : Bool := Memory.wfFrom 0 m

end Sys2Proof.Machine
end

