-- ==== Sys2Proof/Machine/State.lean ====
section
/-! DEFINITION. The state of the machine (R20), the reasons a step can stop, and the state after reset (R41). -/

namespace Sys2Proof.Machine

/-- The causes of R200. Each is what `step` returns as Fault(cause, info) (R97b); the number is the info of R207.
The state a fault leaves is `State.takeFault` (R206). -/
inductive Fault where
  /-- Code 1 (R201). Raised by 2nnn when sp = 16. Info: the address of the 2nnn. Safe: the spec's own stop. -/
  | stackOverflow (info : Nat)
  /-- Code 2 (R202). Raised by 00EE when sp = 0. Info: the address of the 00EE. Safe: the spec's own stop. -/
  | stackUnderflow (info : Nat)
  /-- Code 3 (R203). Raised by the fetch of a step when pc > 0xFFE. Info: pc. Safe: the spec's own stop. -/
  | fetchOob (info : Nat)
  /-- Code 4 (R204). Raised by Dxyn and Fx65 reading above 4095. Info: that address. Safe: the spec's own stop. -/
  | readOob (info : Nat)
  /-- Code 5 (R205). Raised by Fx33 and Fx55 writing above 4095. Info: that address. Safe: the spec's own stop. -/
  | writeOob (info : Nat)
  deriving DecidableEq, Repr

/-- Why an operation has no successor state. -/
inductive Refusal where
  /-- An instruction without a meaning in this model. No arm of `exec` raises it. -/
  | notModelled (mnemonic : String)
  /-- `step` on a core with faulted = 1 (R97c, U3). Raised by `step` only. Safe: the spec gives no successor. -/
  | coreFaulted
  /-- Any operation but reset on a core never reset (R97c, U9). Raised by `hostApply` only. Safe: the spec gives no successor. -/
  | neverReset
  /-- `loadProgram` with more than 3584 bytes (R173, U10). Raised by `loadProgram` only. Safe: the spec gives no successor. -/
  | programTooLong (length : Nat)
  deriving DecidableEq, Repr

/-- A key event of the host: the key index it names, of any value (R175), and whether it presses or releases. -/
structure KeyEvent where
  key : Int
  down : Bool
  deriving DecidableEq, Repr

/-- The framebuffer: `fb[cx][cy]`, 64 columns of 32 cells, true = lit (R29). -/
abbrev Framebuffer := Vector (Vector Bool 32) 64

/-- The state of the core (R20) and, last, three fields of the model's own. -/
structure State where
  /-- 4096 bytes (R32). -/
  mem : Memory
  /-- V0 to VF (R21); V[15] is also the flag (R23). -/
  V : Vector Byte 16
  /-- The index register (R24). -/
  I : Word
  /-- The program counter (R25). -/
  pc : Word
  /-- The return stack, not in memory (R27, R66). -/
  stack : Vector Word 16
  /-- The number of stack entries in use, 0 to 16 (R27). -/
  sp : Fin 17
  /-- The delay timer (R28). -/
  DT : Byte
  /-- The sound timer (R28). -/
  ST : Byte
  /-- The framebuffer (R29). -/
  fb : Framebuffer
  /-- The framebuffer dirty flag (R30). -/
  dirty : Bool
  /-- The key state, true = pressed (R31). -/
  key : Vector Bool 16
  /-- The fault latch (R40). -/
  faulted : Bool
  /-- The model's own: the key events still to come that take effect inside steps, as one list for each coming key sample: the
  events that take effect just before it (R150, R171b). Log entry 6. -/
  keyEvents : List (List KeyEvent)
  /-- The model's own: how many random bytes have been consumed (R124). Log entry 5. -/
  rndDraws : Nat
  /-- The model's own: how many faults have been taken (R206). Log entry 7. -/
  faultDraws : Nat
  deriving DecidableEq, Repr

/-- The machine right after `reset` (R41): memory as `Memory.background` says with nothing listed, `dirty` at RESET_DIRTY, all
else at the values of R41's table. The model's own fields: log entries 5, 6 and 7. -/
def State.reset : State :=
  { mem := []
    V := Vector.replicate 16 0
    I := 0
    pc := 0x200
    stack := Vector.replicate 16 0
    sp := 0
    DT := 0
    ST := 0
    fb := Vector.replicate 64 (Vector.replicate 32 false)
    dirty := Params.resetDirty
    key := Vector.replicate 16 false
    faulted := false
    keyEvents := []
    rndDraws := 0
    faultDraws := 0 }

end Sys2Proof.Machine
end

