-- ==== Sys2Proof/Machine/Ops.lean ====
section
/-! DEFINITION. The named operations over the state that the meanings share: registers, memory, fetch, stack, framebuffer, keys,
the random draw, and taking a fault. Every write to a field that an instruction makes goes through one of these or is a plain
record update in its meaning. -/

namespace Sys2Proof.Machine

/-- What a meaning answers. -/
abbrev Answer := Host.Outcome State Fault Refusal

/-- Success with a state, or Fault (R97 a and b). -/
def finish : Except Fault State → Answer
  | .ok s => .next s
  | .error f => .fault f

/-- The flag register VF = V[15] (R23). -/
def vF : Reg := 15

/-- Reads V[r] (R21). -/
def State.getV (s : State) (r : Reg) : Byte := s.V[r]

/-- Writes V[r] (R21): an ordinary register whatever `r` is. -/
def State.setV (s : State) (r : Reg) (v : Byte) : State := { s with V := s.V.set r v }

/-- `MemRead(a, 1)` of R11: the byte at `a`, or the given fault when `a` is above 4095 (R52). -/
def readMem (oob : Fault) (m : Memory) (a : Nat) : Except Fault Byte :=
  if a < Config.memSize then .ok (Memory.read m a) else .error oob

/-- `MemWrite(a, 1, v)` of R11 with the fault of R205. -/
def writeMem (m : Memory) (a : Nat) (v : Byte) : Except Fault Memory :=
  if a < Config.memSize then .ok (Memory.write m a v) else .error (.writeOob a)

/-- Stores bytes at ascending addresses, one at a time, up to the first address above 4095 (R51, R135). -/
def storeBytes : Memory → Nat → List Byte → Except Fault Memory
  | m, _, [] => .ok m
  | m, a, v :: vs =>
    match writeMem m a v with
    | .ok m' => storeBytes m' (a + 1) vs
    | .error f => .error f

/-- Loads V[r] from `base + r` for the registers of the list in turn, up to the first address above 4095 (R135, R137). -/
def loadRegs (base : Nat) : List Reg → State → Except Fault State
  | [], s => .ok s
  | r :: rs, s =>
    match readMem (.readOob (base + r.val)) s.mem (base + r.val) with
    | .ok v => loadRegs base rs (s.setV r v)
    | .error f => .error f

/-- The fetch (R91): two byte reads, at pc and pc + 1, big-endian; either out of range is FETCH_OOB(pc). -/
def fetch (s : State) : Except Fault Word :=
  match readMem (.fetchOob s.pc.toNat) s.mem s.pc.toNat with
  | .error f => .error f
  | .ok hi =>
    match readMem (.fetchOob s.pc.toNat) s.mem (s.pc.toNat + 1) with
    | .error f => .error f
    | .ok lo => .ok (wordOfBytes hi lo)

/-- The advance of pc by 2 between fetch and execute (R92); also what a taken skip does (R104). -/
def State.advance (s : State) : State := { s with pc := s.pc + 2 }

/-- A conditional skip: pc <- pc + 2 when the condition holds (R104 to R107, R151, R152). -/
def State.skipIf (s : State) (c : Bool) : State := if c then s.advance else s

/-- In the execute phase, the address of the instruction: pc - 2 (R92, R200). -/
def instrAddress (s : State) : Nat := (s.pc - 2).toNat

/-- Pushes a return address: `stack[sp]` is written, then sp counts up; at sp = 16 STACK_OVERFLOW before any write (R27, R102, R201). -/
def push (s : State) (w : Word) : Except Fault State :=
  if h : s.sp.val < 16 then
    .ok { s with stack := s.stack.set s.sp.val w h, sp := ⟨s.sp.val + 1, by omega⟩ }
  else .error (.stackOverflow (instrAddress s))

/-- Pops a return address: sp counts down, then `stack[sp]` is read and kept; at sp = 0 STACK_UNDERFLOW before any write
(R27, R100, R202). -/
def pop (s : State) : Except Fault (Word × State) :=
  if h : 0 < s.sp.val then
    .ok (s.stack[s.sp.val - 1]'(by omega), { s with sp := ⟨s.sp.val - 1, by omega⟩ })
  else .error (.stackUnderflow (instrAddress s))

/-- Reads the cell fb[cx][cy] (R29). -/
def Framebuffer.get (fb : Framebuffer) (cx : Fin 64) (cy : Fin 32) : Bool := fb[cx][cy]

/-- Writes the cell fb[cx][cy] (R29). -/
def Framebuffer.put (fb : Framebuffer) (cx : Fin 64) (cy : Fin 32) (b : Bool) : Framebuffer :=
  fb.set cx ((fb[cx]).set cy b)

/-- All cells false (R141). -/
def Framebuffer.blank : Framebuffer := Vector.replicate 64 (Vector.replicate 32 false)

/-- The effect of a key event on the key state: an index outside 0 to 15 is ignored (R175, R176). -/
def setKey (key : Vector Bool 16) (k : Int) (down : Bool) : Vector Bool 16 :=
  if h : 0 ≤ k ∧ k ≤ 15 then key.set k.toNat down (by omega) else key

/-- The key events that take effect just before the next key sample take effect (R150, R171b); the instants between samples
are the only ones at which an instruction can tell key events apart. -/
def deliverKeys (s : State) : State :=
  match s.keyEvents with
  | [] => s
  | now :: later => { s with key := now.foldl (fun key e => setKey key e.key e.down) s.key, keyEvents := later }

/-- `KeySample(k)` (R150): the value left by the last key event before the sample, and the state after the sample. -/
def keySample (s : State) (k : Reg) : Bool × State :=
  let t := deliverKeys s
  (t.key[k], t)

/-- The scan of R153 over the keys of the list in turn: one sample each, up to the first pressed key. -/
def scanKeys : List Reg → State → Option Reg × State
  | [], s => (none, s)
  | k :: ks, s =>
    let sample := keySample s k
    if sample.1 then (some k, sample.2) else scanKeys ks sample.2

/-- `RandomByte()` (R124): the next byte from outside, and the state after the draw; exactly one byte is consumed. -/
def drawRandom (s : State) : Byte × State := (Config.randomByte s.rndDraws, { s with rndDraws := s.rndDraws + 1 })

/-- A coordinate register of a draw when VF holds `flag`: VF itself counts as the flag, any other register as its value (R142). -/
def coordWithFlag (s : State) (flag : Byte) (r : Reg) : Byte := if r = vF then flag else s.getV r

/-- A coordinate register as a draw reads it when VF holds `flag`: under S that is the current flag when the register is VF, under L
and F the value before the draw (R142, U1). `s` is the state before the draw. -/
def spriteCoord (s : State) (flag : Byte) (r : Reg) : Byte :=
  match Params.aliasReading with
  | .sequential => coordWithFlag s flag r
  | .latched => s.getV r
  | .flagLast => s.getV r

/-- The values VF can hold when a draw reaches the pixel (row, col): 0 for the first pixel, 0 or 1 for every later one, since a
collision comes before (R142). -/
def drawFlags (row col : Nat) : List Byte := if row = 0 ∧ col = 0 then [0] else [0, 1]

/-- The cell (cx, cy) is one that rows 0 to n-1 of the sprite of Dxyn can land on, both coordinates being read with one and the same
VF (R140, R142, R206; log entry 23). -/
def spriteCovers (s : State) (x y : Reg) (n : Nibble) (cx cy : Nat) : Bool :=
  (List.range n.toNat).any fun row => (List.range 8).any fun col => (drawFlags row col).any fun flag =>
    ((spriteCoord s flag x).toNat + col) % 64 == cx && ((spriteCoord s flag y).toNat + row) % 32 == cy

/-- Memory with the bytes at `a` to `a + len - 1` that are in range holding unspecified values after fault `d` (R206). -/
def unspecifiedBytes (d : Nat) (m : Memory) (a len : Nat) : Memory :=
  Memory.writeList m a ((List.range (min len (Config.memSize - a))).map fun j => Config.faultMem d (a + j))

/-- TAKING A FAULT (R206): the state a faulting step leaves, from the state before the step, the cause, and the instruction if
one was fetched. `faulted` is set; pc and the rest of the instruction's footprint hold unspecified values, each a free value;
all else is unchanged; nothing is saved and control goes nowhere (R206 d and e). -/
def State.takeFault (s : State) (f : Fault) (i : Option Instr) : State :=
  let d := s.faultDraws
  let t := { s with pc := Config.faultPc d, faulted := true, faultDraws := d + 1 }
  match f, i with
  | .readOob _, some (.drw x y n) =>
    { t with
      V := t.V.set vF (Config.faultReg d vF.val)
      fb := Vector.ofFn fun cx => Vector.ofFn fun cy =>
        if spriteCovers s x y n cx.val cy.val then Config.faultCell d cx.val cy.val else s.fb[cx][cy]
      dirty := Config.faultDirty d }
  | .readOob _, some (.ldVxI x) =>
    { t with V := Vector.ofFn fun r => if r.val ≤ x.val then Config.faultReg d r.val else s.V[r] }
  | .writeOob _, some (.ldB _) => { t with mem := unspecifiedBytes d s.mem s.I.toNat 3 }
  | .writeOob _, some (.ldIVx x) => { t with mem := unspecifiedBytes d s.mem s.I.toNat (x.val + 1) }
  | _, _ => t

/-- The cause numbers of R200. -/
def Fault.code : Fault → Nat
  | .stackOverflow _ => 1
  | .stackUnderflow _ => 2
  | .fetchOob _ => 3
  | .readOob _ => 4
  | .writeOob _ => 5

/-- The number a fault records (R207). -/
def Fault.info : Fault → Nat
  | .stackOverflow a => a
  | .stackUnderflow a => a
  | .fetchOob a => a
  | .readOob a => a
  | .writeOob a => a

end Sys2Proof.Machine
end

