-- ==== Sys2Proof/Machine/Operands.lean ====
section
/-! DEFINITION. The operand forms: zero-extended immediates (R73), the jump offset (R103), the effective address I + offset
(R130), the key a register selects (R151), the registers V0 to Vx (R135), the decimal digits of a byte (R134) and the cell a
sprite pixel lands on (R140). -/

namespace Sys2Proof.Machine

/-- `zext_16(nnn)` (R11, R73). -/
def zext12 (nnn : Imm12) : Word := nnn.setWidth 16

/-- `zext_16(v)` of a byte (R11, R73). -/
def zext8 (v : Byte) : Word := v.setWidth 16

/-- The target of Bnnn: nnn + V[0], never V[x], never reduced to 12 bits (R103). -/
def jumpOffsetTarget (s : State) (nnn : Imm12) : Word := zext12 nnn + zext8 (s.getV 0)

/-- The effective address: the natural number I + offset, not reduced to any width (R52, R130). -/
def effectiveAddress (s : State) (offset : Nat) : Nat := s.I.toNat + offset

/-- The font address of Fx29: FONT_BASE + 5 * V[x], at most 0x54B (R133). -/
def glyphAddress (v : Byte) : Word := BitVec.ofNat 16 (Params.fontBase + 5 * v.toNat)

/-- The key selected by V[x] AND 0xF (R151, R152). -/
def selectedKey (v : Byte) : Reg := Fin.ofNat 16 (v.toNat % 16)

/-- V0 to Vx in ascending order (R135). -/
def regsUpTo (x : Reg) : List Reg := (List.finRange 16).take (x.val + 1)

/-- The decimal digits that Fx33 stores: hundreds, tens, ones; division rounds down (R134). -/
def decimalDigits (v : Byte) : List Byte := [v / 100, v / 10 % 10, v % 10]

/-- Pixel `col` of a sprite row: bit (7 - col) of the byte (R140). -/
def spritePixel (row : Byte) (col : Nat) : Bool := row.getLsbD (7 - col)

/-- The column a pixel lands on: (V[x] + col) mod 64 (R140). -/
def pixelColumn (vx : Byte) (col : Nat) : Fin 64 := Fin.ofNat 64 (vx.toNat + col)

/-- The row a pixel lands on: (V[y] + row) mod 32 (R140). -/
def pixelRow (vy : Byte) (row : Nat) : Fin 32 := Fin.ofNat 32 (vy.toNat + row)

end Sys2Proof.Machine
end

