-- ==== Sys2Proof/Machine/Flags.lean ====
section
/-! DEFINITION. The flag values of R23's table, and the order in which a row writes VF and V[x] under each reading of U1. -/

namespace Sys2Proof.Machine

/-- A condition as the flag value 0 or 1 (R23). -/
def flagOf (c : Bool) : Byte := if c then 1 else 0

/-- 8xy4: 1 if the sum of the two unsigned bytes exceeds 255 (R117). -/
def carryFlag (a b : Byte) : Byte := flagOf (decide (a.toNat + b.toNat > 255))

/-- 8xy5 and, with the operands exchanged, 8xy7: 1 if the minuend is strictly greater (R118, R121; conflict C1). -/
def greaterFlag (a b : Byte) : Byte := flagOf (decide (a.toNat > b.toNat))

/-- 8xy6: the bit shifted out, V[x] AND 1 (R120). -/
def lowBitFlag (a : Byte) : Byte := a &&& 1

/-- 8xyE: the bit shifted out, (V[x] AND 0x80) >> 7 (R122). -/
def highBitFlag (a : Byte) : Byte := (a &&& 0x80) >>> 7

/-- A row that writes a flag to VF and a result to V[x], both computed from V[x] and V[y], in the order of a reading (R110, U1):
S: flag first, the result from the registers as the flag write left them; L: operands latched, flag first; F: operands latched,
result first. -/
def writeFlagAndResult (reading : Config.AliasReading) (flag result : Byte → Byte → Byte) (x y : Reg) (s : State) : State :=
  let a := s.getV x
  let b := s.getV y
  match reading with
  | .sequential =>
    let t := s.setV vF (flag a b)
    t.setV x (result (t.getV x) (t.getV y))
  | .latched => (s.setV vF (flag a b)).setV x (result a b)
  | .flagLast => (s.setV x (result a b)).setV vF (flag a b)

/-- The reading of 8xy4: its row latches both operands in `sum` before any write, so S and L agree on it (R117, U1). -/
def latchingReading : Config.AliasReading → Config.AliasReading
  | .sequential => .latched
  | .latched => .latched
  | .flagLast => .flagLast

end Sys2Proof.Machine
end

