-- ==== Sys2Proof/Machine/Alu.lean ====
section
/-! DEFINITION. The meanings of spec/42_alu.md: load, add, logic, subtract, shift and random. None can fault. -/

namespace Sys2Proof.Machine

/-- 6xkk (R111). -/
def execLdVxKk (x : Reg) (kk : Byte) (s : State) : Answer := .next (s.setV x kk)

/-- 7xkk (R112): no flag. -/
def execAddVxKk (x : Reg) (kk : Byte) (s : State) : Answer := .next (s.setV x (s.getV x + kk))

/-- 8xy0 (R113). -/
def execLdVxVy (x y : Reg) (s : State) : Answer := .next (s.setV x (s.getV y))

/-- 8xy1 (R114). -/
def execOrVxVy (x y : Reg) (s : State) : Answer := .next (s.setV x (s.getV x ||| s.getV y))

/-- 8xy2 (R115). -/
def execAndVxVy (x y : Reg) (s : State) : Answer := .next (s.setV x (s.getV x &&& s.getV y))

/-- 8xy3 (R116). -/
def execXorVxVy (x y : Reg) (s : State) : Answer := .next (s.setV x (s.getV x ^^^ s.getV y))

/-- 8xy4 under a reading of U1 (R117). -/
def addWithCarry (reading : Config.AliasReading) (x y : Reg) (s : State) : State :=
  writeFlagAndResult (latchingReading reading) carryFlag (fun a b => a + b) x y s

/-- 8xy5 under a reading of U1 (R118). -/
def subtract (reading : Config.AliasReading) (x y : Reg) (s : State) : State :=
  writeFlagAndResult reading greaterFlag (fun a b => a - b) x y s

/-- 8xy6 under a reading of U1 (R120): V[y] has no effect. -/
def shiftRight (reading : Config.AliasReading) (x y : Reg) (s : State) : State :=
  writeFlagAndResult reading (fun a _ => lowBitFlag a) (fun a _ => a >>> 1) x y s

/-- 8xy7 under a reading of U1 (R121). -/
def subtractReverse (reading : Config.AliasReading) (x y : Reg) (s : State) : State :=
  writeFlagAndResult reading (fun a b => greaterFlag b a) (fun a b => b - a) x y s

/-- 8xyE under a reading of U1 (R122): V[y] has no effect. -/
def shiftLeft (reading : Config.AliasReading) (x y : Reg) (s : State) : State :=
  writeFlagAndResult reading (fun a _ => highBitFlag a) (fun a _ => a <<< 1) x y s

/-- 8xy4 (R117). -/
def execAddVxVy (x y : Reg) (s : State) : Answer := .next (addWithCarry Params.aliasReading x y s)

/-- 8xy5 (R118). -/
def execSubVxVy (x y : Reg) (s : State) : Answer := .next (subtract Params.aliasReading x y s)

/-- 8xy6 (R120). -/
def execShrVx (x y : Reg) (s : State) : Answer := .next (shiftRight Params.aliasReading x y s)

/-- 8xy7 (R121). -/
def execSubnVxVy (x y : Reg) (s : State) : Answer := .next (subtractReverse Params.aliasReading x y s)

/-- 8xyE (R122). -/
def execShlVx (x y : Reg) (s : State) : Answer := .next (shiftLeft Params.aliasReading x y s)

/-- Cxkk (R124): one random byte is consumed, also when kk = 0. -/
def execRnd (x : Reg) (kk : Byte) (s : State) : Answer :=
  let r := drawRandom s
  .next (r.2.setV x (r.1 &&& kk))

end Sys2Proof.Machine
end

