-- ==== Sys2Proof/Machine/Display.lean ====
section
/-! DEFINITION. The meanings of spec/44_display.md: CLS and DRW. -/

namespace Sys2Proof.Machine

/-- 00E0 (R141): `dirty` is set whatever the framebuffer was. -/
def execCls (s : State) : Answer := .next { s with fb := Framebuffer.blank, dirty := true }

/-- A coordinate register as the pixel loop reads it: the current value under S, after `VF <- 0` and earlier collisions; the value
before the instruction under L and F (R142, U1). `s0` is the state before the instruction. -/
def drawCoord (reading : Config.AliasReading) (s0 s : State) (r : Reg) : Byte :=
  match reading with
  | .sequential => s.getV r
  | .latched => s0.getV r
  | .flagLast => s0.getV r

/-- One pixel on one cell (R142): new = old XOR pixel; old = 1 and new = 0 is a collision. -/
def drawCell (cx : Fin 64) (cy : Fin 32) (pixel : Bool) (s : State) : State :=
  let old := s.fb.get cx cy
  let new := old ^^ pixel
  let t := if old && !new then s.setV vF 1 else s
  { t with fb := t.fb.put cx cy new }

/-- The body of R142's column loop. -/
def drawPixel (reading : Config.AliasReading) (s0 : State) (x y : Reg) (row : Nat) (spriteByte : Byte) (s : State) (col : Nat) :
    State :=
  drawCell (pixelColumn (drawCoord reading s0 s x) col) (pixelRow (drawCoord reading s0 s y) row) (spritePixel spriteByte col) s

/-- R142's column loop: columns 0 to 7, ascending. -/
def drawRow (reading : Config.AliasReading) (s0 : State) (x y : Reg) (row : Nat) (spriteByte : Byte) (s : State) : State :=
  (List.range 8).foldl (drawPixel reading s0 x y row spriteByte) s

/-- R142's row loop over the rows of the list in turn; each row's byte is read as the loop reaches it. -/
def drawRows (reading : Config.AliasReading) (s0 : State) (x y : Reg) : List Nat → State → Except Fault State
  | [], s => .ok s
  | row :: rows, s =>
    match readMem (.readOob (effectiveAddress s row)) s.mem (effectiveAddress s row) with
    | .ok b => drawRows reading s0 x y rows (drawRow reading s0 x y row b s)
    | .error f => .error f

/-- Dxyn under a reading of U1 (R142): VF <- 0, the loops, then `dirty`. -/
def drawSprite (reading : Config.AliasReading) (x y : Reg) (n : Nibble) (s : State) : Except Fault State :=
  match drawRows reading s x y (List.range n.toNat) (s.setV vF 0) with
  | .ok t => .ok { t with dirty := true }
  | .error f => .error f

/-- Dxyn (R142). -/
def execDrw (x y : Reg) (n : Nibble) (s : State) : Answer := finish (drawSprite Params.aliasReading x y n s)

end Sys2Proof.Machine
end

