-- ==== Sys2Proof/Machine/Flow.lean ====
section
/-! DEFINITION. The meanings of spec/41_flow.md: RET, JP, CALL, JP V0 and the four register skips. In a meaning, pc already
holds the address of the instruction plus 2 (R92). -/

namespace Sys2Proof.Machine

/-- 00EE (R100). -/
def execRet (s : State) : Answer :=
  match pop s with
  | .ok (target, t) => .next { t with pc := target }
  | .error f => .fault f

/-- 1nnn (R101). -/
def execJp (nnn : Imm12) (s : State) : Answer := .next { s with pc := zext12 nnn }

/-- 2nnn (R102). -/
def execCall (nnn : Imm12) (s : State) : Answer :=
  match push s s.pc with
  | .ok t => .next { t with pc := zext12 nnn }
  | .error f => .fault f

/-- Bnnn (R103). -/
def execJpV0 (nnn : Imm12) (s : State) : Answer := .next { s with pc := jumpOffsetTarget s nnn }

/-- 3xkk (R104). -/
def execSeVxKk (x : Reg) (kk : Byte) (s : State) : Answer := .next (s.skipIf (s.getV x == kk))

/-- 4xkk (R105). -/
def execSneVxKk (x : Reg) (kk : Byte) (s : State) : Answer := .next (s.skipIf (s.getV x != kk))

/-- 5xy0 (R106). -/
def execSeVxVy (x y : Reg) (s : State) : Answer := .next (s.skipIf (s.getV x == s.getV y))

/-- 9xy0 (R107). -/
def execSneVxVy (x y : Reg) (s : State) : Answer := .next (s.skipIf (s.getV x != s.getV y))

end Sys2Proof.Machine
end

