-- ==== Sys2Proof/Machine/IndexMemory.lean ====
section
/-! DEFINITION. The meanings of spec/43_index_memory.md: the index register, and the loads and stores through it. None of them
changes I as a side effect of an access (R130). -/

namespace Sys2Proof.Machine

/-- Annn (R131). -/
def execLdI (nnn : Imm12) (s : State) : Answer := .next { s with I := zext12 nnn }

/-- Fx1E (R132): mod 65536, no flag. -/
def execAddI (x : Reg) (s : State) : Answer := .next { s with I := s.I + zext8 (s.getV x) }

/-- Fx29 (R133): the whole byte V[x], no nibble mask. -/
def execLdF (x : Reg) (s : State) : Answer := .next { s with I := glyphAddress (s.getV x) }

/-- The store of bytes from I on that Fx33 and Fx55 share (R134 to R136). -/
def storeAtI (vs : List Byte) (s : State) : Answer :=
  match storeBytes s.mem (effectiveAddress s 0) vs with
  | .ok m => .next { s with mem := m }
  | .error f => .fault f

/-- Fx33 (R134). -/
def execLdB (x : Reg) (s : State) : Answer := storeAtI (decimalDigits (s.getV x)) s

/-- Fx55 (R136). -/
def execLdIVx (x : Reg) (s : State) : Answer := storeAtI ((regsUpTo x).map s.getV) s

/-- Fx65 (R137). -/
def execLdVxI (x : Reg) (s : State) : Answer := finish (loadRegs (effectiveAddress s 0) (regsUpTo x) s)

end Sys2Proof.Machine
end

