-- ==== Sys2Proof/Machine/KeysTimers.lean ====
section
/-! DEFINITION. The meanings of spec/45_keys_timers.md: the key skips, the key wait and the timer accesses. None can fault. -/

namespace Sys2Proof.Machine

/-- Ex9E (R151): one sample. -/
def execSkp (x : Reg) (s : State) : Answer :=
  let sample := keySample s (selectedKey (s.getV x))
  .next (sample.2.skipIf sample.1)

/-- ExA1 (R152): one sample. -/
def execSknp (x : Reg) (s : State) : Answer :=
  let sample := keySample s (selectedKey (s.getV x))
  .next (sample.2.skipIf (!sample.1))

/-- A key index as the byte Fx0A stores (R153). -/
def keyByte (k : Reg) : Byte := BitVec.ofNat 8 k.val

/-- Fx0A (R153): keys 0 to 15 ascending; the first pressed one's index goes to V[x]; none pressed rolls pc back by 2. -/
def execLdVxK (x : Reg) (s : State) : Answer :=
  match scanKeys (List.finRange 16) s with
  | (some k, t) => .next (t.setV x (keyByte k))
  | (none, t) => .next { t with pc := t.pc - 2 }

/-- Fx07 (R154). -/
def execLdVxDt (x : Reg) (s : State) : Answer := .next (s.setV x s.DT)

/-- Fx15 (R155). -/
def execLdDtVx (x : Reg) (s : State) : Answer := .next { s with DT := s.getV x }

/-- Fx18 (R156). -/
def execLdStVx (x : Reg) (s : State) : Answer := .next { s with ST := s.getV x }

end Sys2Proof.Machine
end

