-- ==== Sys2Proof/Machine/NoOp.lean ====
section
/-! DEFINITION. The meaning of spec/46_reserved_nop.md: the no-op class. -/

namespace Sys2Proof.Machine

/-- Any unrecognised word (R160): the execute phase changes nothing. -/
def execNop (s : State) : Answer := .next s

end Sys2Proof.Machine
end

