-- ==== Sys2Proof/Machine/Step.lean ====
section
/-! DEFINITION. One step (R90): fetch, advance, decode, execute. -/

namespace Sys2Proof.Machine

/-- `step()` (R90, R97): refused on a faulted core; a fetch out of bounds is FETCH_OOB; else exactly one instruction, with pc
already advanced by 2. -/
def step (s : State) : Host.Outcome State Fault Refusal :=
  if s.faulted then .refused .coreFaulted
  else
    match fetch s with
    | .error f => .fault f
    | .ok op => exec (decode op) s.advance

/-- The state with an instruction stored where `step` fetches next: at pc, big-endian (R53). Its bits are numbered as
spec/opcode_table.json numbers them; bits at and above `nbits` are 0. Nothing but memory changes; where no instruction can be
fetched (pc > 0xFFE) nothing changes. -/
def State.withFetchWord (s : State) (nbits w : Nat) : State :=
  let bytes := bytesOfWord (BitVec.ofNat 16 (w % 2 ^ nbits))
  match storeBytes s.mem s.pc.toNat [bytes.1, bytes.2] with
  | .ok m => { s with mem := m }
  | .error _ => s

end Sys2Proof.Machine
end

