-- ==== Sys2Proof/Machine/HostOps.lean ====
section
/-! DEFINITION. The host interface (spec/47_host_operations.md): the eight operations as transitions on the state, and one
transition per event (R13, R170). `step` is the only one that runs an instruction. -/

namespace Sys2Proof.Machine

/-- The state of R41 for any FONT and any RESET_DIRTY (R7, R58, D7, D8). -/
def State.resetWith (font : List Byte) (dirty : Bool) : State :=
  { State.reset with mem := Memory.writeList [] Params.fontBase (font.take 80), dirty := dirty }

/-- `reset()` (R172) on a core in any state, or one never reset. The model's own fields stand for the host's key events and
the host's draws, not for the core's state, and go on. -/
def resetCore : Option State → State
  | none => State.reset
  | some s => { State.reset with keyEvents := s.keyEvents, rndDraws := s.rndDraws, faultDraws := s.faultDraws }

/-- `loadProgram(bytes)` (R173): bytes from 0x200 on, nothing else; more than 3584 of them is refused (U10). -/
def loadProgram (bytes : List Byte) (s : State) : Answer :=
  if bytes.length ≤ Config.maxProgram then .next { s with mem := Memory.writeList s.mem Config.programBase bytes }
  else .refused (.programTooLong bytes.length)

/-- One timer's tick (R177): down by 1, stopping at 0. -/
def tickTimer (t : Byte) : Byte := if t.toNat > 0 then t - 1 else t

/-- `tickTimers()` (R177): each timer independently. -/
def tickTimers (s : State) : State := { s with DT := tickTimer s.DT, ST := tickTimer s.ST }

/-- `setKeyDown(key)` (R175): an index outside 0 to 15 is ignored. -/
def setKeyDown (k : Int) (s : State) : State := { s with key := setKey s.key k true }

/-- `setKeyUp(key)` (R176). -/
def setKeyUp (k : Int) (s : State) : State := { s with key := setKey s.key k false }

/-- `isSoundActive()` (R178): ST > 0; changes nothing. -/
def isSoundActive (s : State) : Bool := decide (s.ST.toNat > 0)

/-- `consumeDirtyFramebuffer()` (R179): the grid as it is, the flag's value before, and the state with the flag cleared. -/
def consumeDirtyFramebuffer (s : State) : Framebuffer × Bool × State := (s.fb, s.dirty, { s with dirty := false })

/-- The instruction a step fetches from the state, if the fetch succeeds (R91). -/
def fetchedInstr (s : State) : Option Instr :=
  match fetch s with
  | .ok op => some (decode op)
  | .error _ => none

/-- The events of R13, and one of the model's own: the host's key events of the coming steps are replaced by others, listed by
the key sample they come before (setKeyDown and setKeyUp inside a step, R171b). -/
inductive HostOp where
  | reset
  | loadProgram (bytes : List Byte)
  | step
  | tickTimers
  | setKeyDown (key : Int)
  | setKeyUp (key : Int)
  | isSoundActive
  | consumeDirtyFramebuffer
  | keysDuringSteps (events : List (List KeyEvent))
  deriving DecidableEq, Repr

/-- What an operation returns to the host (R170). -/
inductive HostResult where
  /-- An operation without a result. -/
  | done
  /-- `step` returned Success. -/
  | success
  /-- `step` returned Fault(cause, info). -/
  | fault (f : Fault)
  /-- The Boolean of `isSoundActive`. -/
  | sound (active : Bool)
  /-- The grid and the old flag of `consumeDirtyFramebuffer` (R179). -/
  | framebuffer (grid : Framebuffer) (was : Bool)
  deriving DecidableEq, Repr

/-- What one event does: a result and the state left, or no move (refused, R97c, R180). -/
inductive HostAnswer where
  | ok (result : HostResult) (s : State)
  | refused (r : Refusal)
  deriving DecidableEq, Repr

/-- `step()` as the host sees it (R90, R97): a fault leaves the state of R206. -/
def stepHost (s : State) : HostAnswer :=
  match step s with
  | .next t => .ok .success t
  | .fault f => .ok (.fault f) (s.takeFault f (fetchedInstr s))
  | .refused r => .refused r

/-- An event on a core that has been reset. -/
def hostApplyReady (op : HostOp) (s : State) : HostAnswer :=
  match op with
  | .reset => .ok .done (resetCore (some s))
  | .loadProgram bytes =>
    match loadProgram bytes s with
    | .next t => .ok .done t
    | .fault f => .ok (.fault f) s
    | .refused r => .refused r
  | .step => stepHost s
  | .tickTimers => .ok .done (tickTimers s)
  | .setKeyDown k => .ok .done (setKeyDown k s)
  | .setKeyUp k => .ok .done (setKeyUp k s)
  | .isSoundActive => .ok (.sound (isSoundActive s)) s
  | .consumeDirtyFramebuffer =>
    let r := consumeDirtyFramebuffer s
    .ok (.framebuffer r.1 r.2.1) r.2.2
  | .keysDuringSteps q => .ok .done { s with keyEvents := q }

/-- One event (R13). A core never reset (`none`) has no state the spec describes: every operation but reset is refused (U9). -/
def hostApply (op : HostOp) (core : Option State) : HostAnswer :=
  match core, op with
  | some s, op => hostApplyReady op s
  | none, .reset => .ok .done (resetCore none)
  | none, _ => .refused .neverReset

/-- A sequence of events, each on the state the one before left; it ends at the first refused one. -/
def hostRun : List HostOp → Option State → Except Refusal (Option State)
  | [], core => .ok core
  | op :: ops, core =>
    match hostApply op core with
    | .ok _ t => hostRun ops (some t)
    | .refused r => .error r

end Sys2Proof.Machine
end

