-- ==== Sys2Proof/Safety.lean ====
section
/-! DEFINITION. The terms claims use: completion, the invariant of a run, which registers an instruction writes, the sprite as a
pattern of cells, and repeated calls, returns and ticks. -/

namespace Sys2Proof.Machine

/-- A step or an execute phase that raises no fault and is not refused. -/
def Completes (a : Answer) : Prop := ∃ t, a = .next t

/-- The stack entries in use are post-fetch values of pc (R26). -/
abbrev State.ReturnsInRange (s : State) : Prop :=
  ∀ j : Fin 16, j.val < s.sp.val → (s.stack[j]).toNat ≤ 0x1000

/-- The invariant of a run: memory is in canonical form (which also keeps it to 4096 bytes), the return addresses are in range,
and pc is at most 0x10FE as long as no fault has left it unspecified (R26, R206). -/
abbrev State.Inv (s : State) : Prop :=
  Memory.wf s.mem = true ∧ s.ReturnsInRange ∧ (s.faulted = false → s.pc.toNat ≤ 0x10FE)

/-- The V registers an instruction writes, from R22: V[x], V[0] to V[x], and VF as a flag. -/
def writesReg : Instr → Reg → Bool
  | .ldVxKk x _, r | .addVxKk x _, r | .rnd x _, r => r == x
  | .ldVxVy x _, r | .orVxVy x _, r | .andVxVy x _, r | .xorVxVy x _, r => r == x
  | .addVxVy x _, r | .subVxVy x _, r | .shrVx x _, r | .subnVxVy x _, r | .shlVx x _, r => r == x || r == vF
  | .drw _ _ _, r => r == vF
  | .ldVxDt x, r | .ldVxK x, r => r == x
  | .ldVxI x, r => decide (r.val ≤ x.val)
  | .cls, _ | .ret, _ | .jp _, _ | .call _, _ | .jpV0 _, _ | .ldI _, _ | .nop _, _ => false
  | .seVxKk _ _, _ | .sneVxKk _ _, _ | .seVxVy _ _, _ | .sneVxVy _ _, _ | .skp _, _ | .sknp _, _ => false
  | .ldDtVx _, _ | .ldStVx _, _ | .addI _, _ | .ldF _, _ | .ldB _, _ | .ldIVx _, _ => false

/-- An instruction that writes I (R24, R42). -/
def writesI : Instr → Bool
  | .ldI _ | .addI _ | .ldF _ => true
  | _ => false

/-- An instruction that writes pc beyond the advance of the fetch (R42, R108; conflict C7). -/
def writesPc : Instr → Bool
  | .ret | .jp _ | .call _ | .jpV0 _ | .seVxKk _ _ | .sneVxKk _ _ | .seVxVy _ _ | .sneVxVy _ _ => true
  | .skp _ | .sknp _ | .ldVxK _ => true
  | _ => false

/-- The length in bytes of what an instruction stores at I (R134, R136); 0 for one that stores nothing. -/
def storeLength : Instr → Nat
  | .ldB _ => 3
  | .ldIVx x => x.val + 1
  | _ => 0

/-- An instruction that samples keys (R31, R42). -/
def samplesKeys : Instr → Bool
  | .skp _ | .sknp _ | .ldVxK _ => true
  | _ => false

/-- The cell (cx, cy) is lit in the pattern S of R143: the sprite of `n` rows at I, placed at (vx, vy) with wrap-around. -/
def spritePattern (s : State) (vx vy : Byte) (n : Nibble) (cx : Fin 64) (cy : Fin 32) : Bool :=
  (List.range n.toNat).any fun row => (List.range 8).any fun col =>
    pixelColumn vx col == cx && pixelRow vy row == cy && spritePixel (Memory.read s.mem (effectiveAddress s row)) col

/-- Some cell is lit both in the framebuffer and in the pattern (R143). -/
def SpriteHits (s : State) (vx vy : Byte) (n : Nibble) : Prop :=
  ∃ cx : Fin 64, ∃ cy : Fin 32, s.fb.get cx cy = true ∧ spritePattern s vx vy n cx cy = true

/-- Pixel `p` of a sprite at I, numbered in the order in which a draw processes them: rows ascending, eight columns ascending in each
row (R142). -/
def pixelLit (s : State) (p : Nat) : Bool := spritePixel (Memory.read s.mem (effectiveAddress s (p / 8))) (p % 8)

/-- The cell that pixel `p` lands on when VF holds `flag` (R140, R142). -/
def pixelCell (s : State) (x y : Reg) (flag : Byte) (p : Nat) : Fin 64 × Fin 32 :=
  (pixelColumn (coordWithFlag s flag x) (p % 8), pixelRow (coordWithFlag s flag y) (p / 8))

/-- Pixel `p`, drawn while VF is 0, falls on a cell that is lit in the framebuffer before the draw. -/
def PixelHits (s : State) (x y : Reg) (p : Nat) : Prop :=
  pixelLit s p = true ∧ s.fb.get (pixelCell s x y 0 p).1 (pixelCell s x y 0 p).2 = true

/-- Some lit pixel numbered from `lo` to below `hi` lands on the cell (cx, cy) when VF holds `flag`. -/
def pixelsOn (s : State) (x y : Reg) (flag : Byte) (lo hi : Nat) (cx : Fin 64) (cy : Fin 32) : Bool :=
  (List.range hi).any fun p => decide (lo ≤ p) && pixelLit s p && pixelCell s x y flag p == (cx, cy)

/-- The first address above 4095 that an access of at least one byte running upward from `a` meets (R135, R208). -/
def firstOutOfRange (a : Nat) : Nat := max a Config.memSize

/-- The random bytes an execution consumes: exactly one for Cxkk, none otherwise (R124). -/
def randomBytesUsed : Instr → Nat
  | .rnd _ _ => 1
  | _ => 0

/-- Where an instruction executes without a fault (R200 to R205: the only conditions on which one raises a fault). -/
def ExecutesNormally (i : Instr) (s : State) : Prop :=
  match i with
  | .ret => 0 < s.sp.val
  | .call _ => s.sp.val < 16
  | .ldB _ => effectiveAddress s 2 ≤ 4095
  | .ldIVx x => effectiveAddress s x.val ≤ 4095
  | .ldVxI x => effectiveAddress s x.val ≤ 4095
  | .drw _ _ n => ∀ row, row < n.toNat → effectiveAddress s row ≤ 4095
  | _ => True

/-- The fault an instruction can raise in the execute phase, with its information (R200 to R208). -/
def IsOwnFault (i : Instr) (s : State) (f : Fault) : Prop :=
  match i with
  | .ret => f = .stackUnderflow (instrAddress s)
  | .call _ => f = .stackOverflow (instrAddress s)
  | .ldB _ => f = .writeOob (firstOutOfRange (effectiveAddress s 0))
  | .ldIVx _ => f = .writeOob (firstOutOfRange (effectiveAddress s 0))
  | .ldVxI _ => f = .readOob (firstOutOfRange (effectiveAddress s 0))
  | .drw _ _ _ => f = .readOob (firstOutOfRange (effectiveAddress s 0))
  | _ => False

/-- The state after as many key samples: each lets the key events listed before it take effect (R150). -/
def deliverMany : Nat → State → State
  | 0, s => s
  | k + 1, s => deliverMany k (deliverKeys s)

/-- What the sample of key `k` sees when the keys 0 to k are sampled in turn (R150, R153). -/
def sampleInScan (s : State) (k : Reg) : Bool := (deliverMany (k.val + 1) s).key[k]

/-- A key event as the host operation it stands for (R175, R176). -/
def KeyEvent.apply (e : KeyEvent) (s : State) : State := if e.down then setKeyDown e.key s else setKeyUp e.key s

/-- Calls to the targets of the list in turn, each from the state the one before left. -/
def callAll : List Imm12 → State → Answer
  | [], s => .next s
  | nnn :: rest, s =>
    match exec (.call nnn) s with
    | .next t => callAll rest t
    | .fault f => .fault f
    | .refused r => .refused r

/-- As many returns in turn. -/
def retMany : Nat → State → Answer
  | 0, s => .next s
  | k + 1, s =>
    match exec .ret s with
    | .next t => retMany k t
    | .fault f => .fault f
    | .refused r => .refused r

/-- As many ticks in turn. -/
def tickMany : Nat → State → State
  | 0, s => s
  | k + 1, s => tickMany k (tickTimers s)

end Sys2Proof.Machine
end

