-- ==== Sys2Proof/Certificates/Slice0/Obligations.lean ====
section
/-! DEFINITION. The statements for the provers, family by family in the order of the spec's files. -/

open Sys2Proof Sys2Proof.Machine

/-! ## Reset -/

/-- R41, every row of its table, for every FONT of 80 bytes and every RESET_DIRTY (R7: parameters of the model); the model's own
state after reset is that of its FONT and RESET_DIRTY. That the keys are released rests on the spec's own decision D6 (log
entry 12), the place of the font on D9 (log entry 17). -/
def Obligations.ResetLeavesTheTabledState : Prop :=
  State.reset = State.resetWith Params.font Params.resetDirty ∧
  ∀ (font : List Byte) (d : Bool), font.length = 80 →
    (∀ (j : Nat) (h : j < font.length), Memory.read (State.resetWith font d).mem (0x050 + j) = font[j]) ∧
    (∀ a, a < 0x050 ∨ 0x0A0 ≤ a ∧ a ≤ 0xFFF → Memory.read (State.resetWith font d).mem a = 0) ∧
    (∀ r, (State.resetWith font d).getV r = 0) ∧
    (State.resetWith font d).I = 0 ∧ (State.resetWith font d).pc = 0x200 ∧ (State.resetWith font d).sp.val = 0 ∧
    (∀ j : Fin 16, (State.resetWith font d).stack[j] = 0) ∧
    (State.resetWith font d).DT = 0 ∧ (State.resetWith font d).ST = 0 ∧
    (∀ cx cy, (State.resetWith font d).fb.get cx cy = false) ∧
    (State.resetWith font d).dirty = d ∧
    (∀ k : Reg, (State.resetWith font d).key[k] = false) ∧
    (State.resetWith font d).faulted = false

/-- The invariant of a run holds at the state after reset. -/
def Obligations.ResetMeetsTheInvariant : Prop := State.reset.Inv

/-! ## The step cycle (40_step_cycle.md) -/

/-- R90 to R94: on a core that is not faulted, with pc ≤ 0xFFE, the step is the execute phase of the instruction that the two bytes
at pc decode to, big-endian, with pc already advanced by 2. -/
def Obligations.StepExecutesTheDecodedInstruction : Prop :=
  ∀ (s : State) (i : Instr), s.faulted = false → s.pc.toNat ≤ 0xFFE →
    decode (wordOfBytes (Memory.read s.mem s.pc.toNat) (Memory.read s.mem (s.pc.toNat + 1))) = i →
    step s = exec i { s with pc := s.pc + 2 }

/-- R91, R203: with pc > 0xFFE the fetch faults with pc as the information; no instruction executes. The bound
is the spec's own decision D1 (log entry 11); the cause and its information are its labels (D2, D15, log entry 15). -/
def Obligations.FetchAboveTheTopFaults : Prop :=
  ∀ s : State, s.faulted = false → 0xFFE < s.pc.toNat → step s = .fault (.fetchOob s.pc.toNat)

/-- R97c, R209: after a fault every step is refused until a reset; `faulted` is then 0 again. -/
def Obligations.FaultStopsTheCoreUntilReset : Prop :=
  (∀ s : State, s.faulted = true → step s = .refused .coreFaulted) ∧
  (∀ (s t : State) (f : Fault), stepHost s = .ok (.fault f) t →
    stepHost t = .refused .coreFaulted ∧ (resetCore (some t)).faulted = false)

/-! ## Encoding (30_encoding.md) -/

/-- Words written out from R76's patterns decode to the instructions they stand for, one of each family. -/
def Obligations.SampleWordsDecode : Prop :=
  decode 0x00E0 = .cls ∧ decode 0x2ABC = .call 0xABC ∧ decode 0x8AB5 = .subVxVy 0xA 0xB ∧ decode 0xA2F0 = .ldI 0x2F0 ∧
  decode 0xD123 = .drw 1 2 3 ∧ decode 0xE3A1 = .sknp 3 ∧ decode 0xF515 = .ldDtVx 5 ∧ decode 0x5121 = .nop 0x5121

/-- Every well-formed instruction is what its word decodes to: no operand bit is lost. -/
def Obligations.DecodeInvertsEncode : Prop :=
  ∀ i : Instr, i.wellFormed = true → decode (encode i) = i

/-- Every word is the word of the instruction it decodes to, and that instruction is well formed (R75: decode is total). -/
def Obligations.EncodeInvertsDecode : Prop :=
  ∀ w : Word, encode (decode w) = w ∧ (decode w).wellFormed = true

/-- R77: the words that decode to a no-op are exactly those of its list, and such a no-op carries the word. -/
def Obligations.NoOpWordsAreExactlyTheListedOnes : Prop :=
  ∀ w v : Word, decode w = .nop v ↔ isNopWord w = true ∧ v = w

/-- R76: a word is a row's instruction exactly when the word AND the row's mask is the row's match. -/
def Obligations.DecodeFollowsTheOpcodeMap : Prop :=
  ∀ (w : Word) (r : OpcodeRow), r ∈ opcodeMap → (r.matches w = true ↔ opcodeRow (decode w) = r)

/-! ## Control transfer (41_flow.md) -/

/-- R100: RET pops pc; the entry stays in the stack; at sp = 0 it faults before any write. -/
def Obligations.RetPopsThePc : Prop :=
  ∀ s : State,
    (∀ h : 0 < s.sp.val, exec .ret s = .next { s with
      sp := ⟨s.sp.val - 1, by omega⟩, pc := s.stack[s.sp.val - 1]'(by omega) }) ∧
    (s.sp.val = 0 → exec .ret s = .fault (.stackUnderflow (s.pc - 2).toNat))

/-- R101: JP sets pc to nnn, and changes nothing else. -/
def Obligations.JpSetsThePc : Prop :=
  ∀ (nnn : Imm12) (s : State), ∃ t, exec (.jp nnn) s = .next t ∧ t.pc.toNat = nnn.toNat ∧ t = { s with pc := t.pc }

/-- R102: CALL pushes pc, the address after it, and jumps; at sp = 16 it faults before any write. -/
def Obligations.CallPushesAndJumps : Prop :=
  ∀ (nnn : Imm12) (s : State),
    (∀ h : s.sp.val < 16, ∃ t, exec (.call nnn) s = .next t ∧ t.pc.toNat = nnn.toNat ∧
      t = { s with stack := s.stack.set s.sp.val s.pc h, sp := ⟨s.sp.val + 1, by omega⟩, pc := t.pc }) ∧
    (s.sp.val = 16 → exec (.call nnn) s = .fault (.stackOverflow (s.pc - 2).toNat))

/-- R103: Bnnn sets pc to the natural sum nnn + V[0], whatever op[11:8] is, with no reduction. -/
def Obligations.JpV0AddsOnlyV0 : Prop :=
  ∀ (nnn : Imm12) (s : State),
    ∃ t, exec (.jpV0 nnn) s = .next t ∧ t.pc.toNat = nnn.toNat + (s.getV 0).toNat ∧ t = { s with pc := t.pc }

/-- R104 to R107: the four register skips add 2 to pc exactly when their condition holds, and change nothing else. -/
def Obligations.SkipsAddTwoOnTheirCondition : Prop :=
  ∀ (x y : Reg) (kk : Byte) (s : State),
    exec (.seVxKk x kk) s = .next { s with pc := if s.getV x = kk then s.pc + 2 else s.pc } ∧
    exec (.sneVxKk x kk) s = .next { s with pc := if s.getV x ≠ kk then s.pc + 2 else s.pc } ∧
    exec (.seVxVy x y) s = .next { s with pc := if s.getV x = s.getV y then s.pc + 2 else s.pc } ∧
    exec (.sneVxVy x y) s = .next { s with pc := if s.getV x ≠ s.getV y then s.pc + 2 else s.pc }

/-- R102's property, nested: calls within the depth all complete, and as many returns, from any pc and with any memory, give the
pc after the first call and the depth before it. -/
def Obligations.NestedCallsUnwind : Prop :=
  ∀ (targets : List Imm12) (s : State), s.sp.val + targets.length ≤ 16 →
    ∃ t, callAll targets s = .next t ∧ t.sp.val = s.sp.val + targets.length ∧
      ∀ (p : Word) (m : Memory), ∃ u, retMany targets.length { t with pc := p, mem := m } = .next u ∧ u.sp = s.sp ∧
        (targets ≠ [] → u.pc = s.pc)

/-- R102, R201: one call beyond the 16 entries faults. -/
def Obligations.SeventeenthCallFaults : Prop :=
  ∀ (targets : List Imm12) (s : State), 16 < s.sp.val + targets.length →
    ∃ a, callAll targets s = .fault (.stackOverflow a)

/-! ## Register load, arithmetic, logic, shift, random (42_alu.md) -/

/-- R111, R112, R113: load, add immediate (mod 256, no flag) and copy write V[x] and nothing else, whatever x is. -/
def Obligations.LoadAddImmediateAndCopy : Prop :=
  ∀ (x y : Reg) (kk : Byte) (s : State),
    exec (.ldVxKk x kk) s = .next (s.setV x kk) ∧
    exec (.addVxKk x kk) s = .next (s.setV x (BitVec.ofNat 8 (((s.getV x).toNat + kk.toNat) % 256))) ∧
    exec (.ldVxVy x y) s = .next (s.setV x (s.getV y))

/-- R114, R115, R116: the bitwise rows write V[x], bit by bit, and leave VF alone unless x is F. -/
def Obligations.LogicIsBitwiseWithoutFlag : Prop :=
  ∀ (x y : Reg) (s : State),
    (∃ t, exec (.orVxVy x y) s = .next t ∧ t = { s with V := t.V } ∧ (∀ r, r ≠ x → t.getV r = s.getV r) ∧
      ∀ b, (t.getV x).getLsbD b = ((s.getV x).getLsbD b || (s.getV y).getLsbD b)) ∧
    (∃ t, exec (.andVxVy x y) s = .next t ∧ t = { s with V := t.V } ∧ (∀ r, r ≠ x → t.getV r = s.getV r) ∧
      ∀ b, (t.getV x).getLsbD b = ((s.getV x).getLsbD b && (s.getV y).getLsbD b)) ∧
    (∃ t, exec (.xorVxVy x y) s = .next t ∧ t = { s with V := t.V } ∧ (∀ r, r ≠ x → t.getV r = s.getV r) ∧
      ∀ b, (t.getV x).getLsbD b = ((s.getV x).getLsbD b ^^ (s.getV y).getLsbD b))

/-- R117, all x and y: V[x] ends as the sum mod 256 of the old values; VF ends as the carry unless x is F.
For x = F it rests on the order of the row's writes, the spec's own decision D4 (log entry 3). -/
def Obligations.AddWithCarryOut : Prop :=
  ∀ (x y : Reg) (s : State),
    ∃ t, exec (.addVxVy x y) s = .next t ∧ t = { s with V := t.V } ∧
      (t.getV x).toNat = ((s.getV x).toNat + (s.getV y).toNat) % 256 ∧
      (x ≠ vF → t.getV vF = if (s.getV x).toNat + (s.getV y).toNat > 255 then 1 else 0) ∧
      ∀ r, r ≠ x → r ≠ vF → t.getV r = s.getV r

/-- R118, R121 where neither operand is VF: the difference mod 256, and VF = 1 exactly when the minuend is strictly greater
(conflict C1). The other forms are `AliasedResults`. -/
def Obligations.SubtractFlagIsStrictlyGreater : Prop :=
  ∀ (x y : Reg) (s : State), x ≠ vF → y ≠ vF →
    (∃ t, exec (.subVxVy x y) s = .next t ∧ t = { s with V := t.V } ∧
      (t.getV x).toNat = ((s.getV x).toNat + 256 - (s.getV y).toNat) % 256 ∧
      t.getV vF = (if (s.getV x).toNat > (s.getV y).toNat then 1 else 0) ∧
      ∀ r, r ≠ x → r ≠ vF → t.getV r = s.getV r) ∧
    (∃ t, exec (.subnVxVy x y) s = .next t ∧ t = { s with V := t.V } ∧
      (t.getV x).toNat = ((s.getV y).toNat + 256 - (s.getV x).toNat) % 256 ∧
      t.getV vF = (if (s.getV y).toNat > (s.getV x).toNat then 1 else 0) ∧
      ∀ r, r ≠ x → r ≠ vF → t.getV r = s.getV r)

/-- R120, R122 where x is not F, for every y, which is ignored: one bit logical, VF the bit shifted out. The other forms are
`AliasedResults`. -/
def Obligations.ShiftsGiveTheBitShiftedOut : Prop :=
  ∀ (x y : Reg) (s : State), x ≠ vF →
    (∃ t, exec (.shrVx x y) s = .next t ∧ t = { s with V := t.V } ∧
      (t.getV x).toNat = (s.getV x).toNat / 2 ∧ (t.getV vF).toNat = (s.getV x).toNat % 2 ∧
      ∀ r, r ≠ x → r ≠ vF → t.getV r = s.getV r) ∧
    (∃ t, exec (.shlVx x y) s = .next t ∧ t = { s with V := t.V } ∧
      (t.getV x).toNat = 2 * (s.getV x).toNat % 256 ∧ (t.getV vF).toNat = (s.getV x).toNat / 128 ∧
      ∀ r, r ≠ x → r ≠ vF → t.getV r = s.getV r)

/-- R125, its eleven rows, for the forms with an operand VF. It rests on the reading S of the rows, the spec's own decision D4
(log entry 3). -/
def Obligations.AliasedResults : Prop :=
  ∀ (x : Reg) (s : State), x ≠ vF → ∀ a v : Byte, s.getV x = a → s.getV vF = v → ∀ f : Byte,
    (f = (if a.toNat + v.toNat > 255 then 1 else 0) → exec (.addVxVy x vF) s = .next ((s.setV vF f).setV x (a + v))) ∧
    exec (.addVxVy vF x) s = .next (s.setV vF (v + a)) ∧
    exec (.addVxVy vF vF) s = .next (s.setV vF (v + v)) ∧
    (f = (if a.toNat > v.toNat then 1 else 0) → exec (.subVxVy x vF) s = .next ((s.setV vF f).setV x (a - f))) ∧
    (f = (if v.toNat > a.toNat then 1 else 0) → exec (.subVxVy vF x) s = .next (s.setV vF (f - a))) ∧
    exec (.subVxVy vF vF) s = .next (s.setV vF 0) ∧
    (∀ y, exec (.shrVx vF y) s = .next (s.setV vF 0)) ∧
    (f = (if v.toNat > a.toNat then 1 else 0) → exec (.subnVxVy x vF) s = .next ((s.setV vF f).setV x (f - a))) ∧
    (f = (if a.toNat > v.toNat then 1 else 0) → exec (.subnVxVy vF x) s = .next (s.setV vF (a - f))) ∧
    exec (.subnVxVy vF vF) s = .next (s.setV vF 0) ∧
    (f.toNat = v.toNat / 128 → ∀ y, exec (.shlVx vF y) s = .next (s.setV vF (f + f)))

/-- U1: where no operand that the instruction reads is VF, the three readings agree, so nothing said of those forms rests on the
choice of one. -/
def Obligations.ReadingsAgreeWithoutVfOperands : Prop :=
  ∀ (rd : Config.AliasReading) (x y : Reg) (n : Nibble) (s : State), x ≠ vF → y ≠ vF →
    addWithCarry rd x y s = addWithCarry .sequential x y s ∧
    subtract rd x y s = subtract .sequential x y s ∧
    shiftRight rd x y s = shiftRight .sequential x y s ∧
    subtractReverse rd x y s = subtractReverse .sequential x y s ∧
    shiftLeft rd x y s = shiftLeft .sequential x y s ∧
    drawSprite rd x y n s = drawSprite .sequential x y n s

/-- R124: V[x] is the next random byte AND kk, so it has no bit outside kk, and exactly one byte is consumed; it holds whatever
the byte is. -/
def Obligations.RndMasksOneRandomByte : Prop :=
  ∀ (x : Reg) (kk : Byte) (s : State),
    ∃ t, exec (.rnd x kk) s = .next t ∧ t = { s with V := t.V, rndDraws := s.rndDraws + 1 } ∧
      t.getV x = Config.randomByte s.rndDraws &&& kk ∧ t.getV x &&& ~~~kk = 0 ∧ ∀ r, r ≠ x → t.getV r = s.getV r

/-! ## Index register and memory (43_index_memory.md) -/

/-- R131, R132: Annn loads I; Fx1E adds the zero-extended V[x] mod 65536 and writes no flag. -/
def Obligations.IndexLoadAndAdd : Prop :=
  ∀ (nnn : Imm12) (x : Reg) (s : State),
    (∃ t, exec (.ldI nnn) s = .next t ∧ t = { s with I := t.I } ∧ t.I.toNat = nnn.toNat) ∧
    (∃ t, exec (.addI x) s = .next t ∧ t = { s with I := t.I } ∧ t.I.toNat = (s.I.toNat + (s.getV x).toNat) % 65536)

/-- R133: Fx29 points I at FONT_BASE + 5 * V[x], the whole byte V[x], with no nibble mask. FONT_BASE = 0x50 is the spec's decision D9
(log entry 17). -/
def Obligations.GlyphAddressUsesTheWholeByte : Prop :=
  ∀ (x : Reg) (s : State),
    ∃ t, exec (.ldF x) s = .next t ∧ t = { s with I := t.I } ∧ t.I.toNat = 0x050 + 5 * (s.getV x).toNat

/-- R134 in range: Fx33 stores the three decimal digits of V[x] at I, I+1, I+2, and changes nothing else. -/
def Obligations.BcdStoresThreeDigits : Prop :=
  ∀ (x : Reg) (s : State), Memory.wf s.mem = true → effectiveAddress s 2 ≤ 4095 →
    ∃ t, exec (.ldB x) s = .next t ∧ t = { s with mem := t.mem } ∧
      (Memory.read t.mem (effectiveAddress s 0)).toNat = (s.getV x).toNat / 100 ∧
      (Memory.read t.mem (effectiveAddress s 1)).toNat = (s.getV x).toNat / 10 % 10 ∧
      (Memory.read t.mem (effectiveAddress s 2)).toNat = (s.getV x).toNat % 10 ∧
      ∀ a, a < effectiveAddress s 0 ∨ effectiveAddress s 2 < a → Memory.read t.mem a = Memory.read s.mem a

/-- R136 in range: Fx55 stores V[0] to V[x] at I to I+x, and changes nothing else; I is unchanged. -/
def Obligations.StoreRegistersWritesEach : Prop :=
  ∀ (x : Reg) (s : State), Memory.wf s.mem = true → effectiveAddress s x.val ≤ 4095 →
    ∃ t, exec (.ldIVx x) s = .next t ∧ t = { s with mem := t.mem } ∧
      (∀ r : Reg, r.val ≤ x.val → Memory.read t.mem (effectiveAddress s r.val) = s.getV r) ∧
      ∀ a, a < effectiveAddress s 0 ∨ effectiveAddress s x.val < a → Memory.read t.mem a = Memory.read s.mem a

/-- R137 in range: Fx65 loads V[0] to V[x] from I to I+x, and changes nothing else; I is unchanged. -/
def Obligations.LoadRegistersReadsEach : Prop :=
  ∀ (x : Reg) (s : State), effectiveAddress s x.val ≤ 4095 →
    ∃ t, exec (.ldVxI x) s = .next t ∧ t = { s with V := t.V } ∧
      ∀ r : Reg, t.getV r = if r.val ≤ x.val then Memory.read s.mem (effectiveAddress s r.val) else s.getV r

/-- R134 to R137, R204, R205: out of range, the transfers fault with the first address above 4095. -/
def Obligations.TransfersFaultAtTheFirstBadAddress : Prop :=
  ∀ (x : Reg) (s : State),
    (4095 < effectiveAddress s 2 → exec (.ldB x) s = .fault (.writeOob (max s.I.toNat 4096))) ∧
    (4095 < effectiveAddress s x.val → exec (.ldIVx x) s = .fault (.writeOob (max s.I.toNat 4096))) ∧
    (4095 < effectiveAddress s x.val → exec (.ldVxI x) s = .fault (.readOob (max s.I.toNat 4096)))

/-- R136 and R137 together: what Fx55 stored, Fx65 with the same x loads back into any register file, at any pc. -/
def Obligations.StoreThenLoadRestoresRegisters : Prop :=
  ∀ (x : Reg) (s : State) (V : Vector Byte 16) (p : Word), Memory.wf s.mem = true → effectiveAddress s x.val ≤ 4095 →
    ∃ t u, exec (.ldIVx x) s = .next t ∧ exec (.ldVxI x) { t with V := V, pc := p } = .next u ∧
      ∀ r : Reg, u.getV r = if r.val ≤ x.val then s.getV r else V[r]

/-- R63: a store over the next instruction is what the next fetch reads. -/
def Obligations.StoreIsSeenByTheNextFetch : Prop :=
  ∀ (x : Reg) (s : State), Memory.wf s.mem = true → s.I = s.pc → 1 ≤ x.val → effectiveAddress s x.val ≤ 4095 →
    ∃ t, exec (.ldIVx x) s = .next t ∧ fetch t = .ok (wordOfBytes (s.getV 0) (s.getV 1))

/-! ## Display (44_display.md) -/

/-- R141: CLS clears every cell and marks dirty, and changes nothing else. -/
def Obligations.ClsClearsEveryCell : Prop :=
  ∀ s : State, ∃ t, exec .cls s = .next t ∧ t = { s with fb := t.fb, dirty := true } ∧ ∀ cx cy, t.fb.get cx cy = false

/-- R142, R143, coordinates not VF: the framebuffer ends as fb XOR S with S the wrapped sprite, VF as 1 exactly when a lit cell is hit
(0 otherwise), dirty as 1; nothing else changes. -/
def Obligations.DrawIsXorWithTheWrappedSprite : Prop :=
  ∀ (x y : Reg) (n : Nibble) (s : State), x ≠ vF → y ≠ vF → (∀ row, row < n.toNat → effectiveAddress s row ≤ 4095) →
    ∃ t, exec (.drw x y n) s = .next t ∧ t = { s with V := t.V, fb := t.fb, dirty := true } ∧
      (∀ cx cy, t.fb.get cx cy = (s.fb.get cx cy ^^ spritePattern s (s.getV x) (s.getV y) n cx cy)) ∧
      (SpriteHits s (s.getV x) (s.getV y) n → t.getV vF = 1) ∧
      (¬ SpriteHits s (s.getV x) (s.getV y) n → t.getV vF = 0) ∧
      ∀ r, r ≠ vF → t.getV r = s.getV r

/-- R143 a and b (conflict C8): the same draw again, at any pc, restores the framebuffer, and sets VF exactly when some pixel of the
sprite fell on an unlit cell the first time. -/
def Obligations.DrawingTwiceRestores : Prop :=
  ∀ (x y : Reg) (n : Nibble) (s : State) (p : Word), x ≠ vF → y ≠ vF →
    (∀ row, row < n.toNat → effectiveAddress s row ≤ 4095) →
    ∃ t u, exec (.drw x y n) s = .next t ∧ exec (.drw x y n) { t with pc := p } = .next u ∧ u.fb = s.fb ∧
      (u.getV vF = 1 ↔ ∃ cx cy, spritePattern s (s.getV x) (s.getV y) n cx cy = true ∧ s.fb.get cx cy = false)

/-- R142, R204: a draw that reaches a row above 4095 faults with the first such address, whatever the coordinate registers are. -/
def Obligations.DrawFaultsAtTheFirstBadRow : Prop :=
  ∀ (x y : Reg) (n : Nibble) (s : State), (∃ row, row < n.toNat ∧ 4095 < effectiveAddress s row) →
    exec (.drw x y n) s = .fault (.readOob (max s.I.toNat 4096))

/-- R142, every form, also with a coordinate VF and with n = 0: the draw completes when its rows are in range; VF ends 0 or 1, dirty is
set, only cells the sprite covers change, and no other state does. Which cells a coordinate VF covers rests on the reading S, the
spec's own decision D4 (log entries 3 and 23). -/
def Obligations.DrawCompletesInEveryForm : Prop :=
  ∀ (x y : Reg) (n : Nibble) (s : State), (∀ row, row < n.toNat → effectiveAddress s row ≤ 4095) →
    ∃ t, exec (.drw x y n) s = .next t ∧ t = { s with V := t.V, fb := t.fb, dirty := true } ∧
      (t.getV vF = 0 ∨ t.getV vF = 1) ∧ (∀ r, r ≠ vF → t.getV r = s.getV r) ∧
      ∀ (cx : Fin 64) (cy : Fin 32), spriteCovers s x y n cx.val cy.val = false → t.fb.get cx cy = s.fb.get cx cy

/-- R142: the value VF had before a draw has no influence on it, also where VF is a coordinate. It rests on the reading S, the spec's
own decision D4 (log entry 3). -/
def Obligations.OldVfDoesNotMatterToADraw : Prop :=
  ∀ (x y : Reg) (n : Nibble) (s : State) (v : Byte), exec (.drw x y n) (s.setV vF v) = exec (.drw x y n) s

/-- R142: a coordinate register that is VF counts as 0 up to and including the first pixel that collides and as 1 for every pixel after
it, pixels in rows ascending and columns ascending; where nothing collides it counts as 0 throughout. Pixel k is the first to
collide in the second clause. It rests on the reading S, the spec's own decision D4 (log entry 3). -/
def Obligations.VfCoordinateIsZeroBeforeACollision : Prop :=
  ∀ (x y : Reg) (n : Nibble) (s : State), (∀ row, row < n.toNat → effectiveAddress s row ≤ 4095) →
    (∀ vx vy : Byte, vx = (if x = vF then 0 else s.getV x) → vy = (if y = vF then 0 else s.getV y) → ¬ SpriteHits s vx vy n →
      ∃ t, exec (.drw x y n) s = .next t ∧ t.getV vF = 0 ∧
        ∀ cx cy, t.fb.get cx cy = (s.fb.get cx cy ^^ spritePattern s vx vy n cx cy)) ∧
    (∀ k, k < 8 * n.toNat → PixelHits s x y k → (∀ p, p < k → ¬ PixelHits s x y p) →
      ∃ t, exec (.drw x y n) s = .next t ∧ t.getV vF = 1 ∧
        ∀ cx cy, t.fb.get cx cy =
          ((s.fb.get cx cy ^^ pixelsOn s x y 0 0 (k + 1) cx cy) ^^ pixelsOn s x y 1 (k + 1) (8 * n.toNat) cx cy))

/-! ## Keys and timers (45_keys_timers.md) -/

/-- R150 to R152: each key skip makes one sample, of the key in the low nibble of V[x], after the key events that come before it, and
skips on it; nothing else changes. The list of key events still to come is the model's own (log entry 6). -/
def Obligations.KeySkipsSampleOneKey : Prop :=
  ∀ (x k : Reg) (s : State), k.val = (s.getV x).toNat % 16 →
    exec (.skp x) s = .next { deliverKeys s with pc := if (deliverKeys s).key[k] = true then s.pc + 2 else s.pc } ∧
    exec (.sknp x) s = .next { deliverKeys s with pc := if (deliverKeys s).key[k] = true then s.pc else s.pc + 2 } ∧
    (s.keyEvents = [] → deliverKeys s = s)

/-- R153 with no key event during the instruction: the lowest pressed key's index goes to V[x]; with none pressed pc goes back by 2.
Nothing else changes. -/
def Obligations.KeyWaitTakesTheLowestPressedKey : Prop :=
  ∀ (x : Reg) (s : State), s.keyEvents = [] →
    (∀ k : Reg, s.key[k] = true → (∀ j : Reg, j < k → s.key[j] = false) →
      exec (.ldVxK x) s = .next (s.setV x (BitVec.ofNat 8 k.val))) ∧
    ((∀ k : Reg, s.key[k] = false) → exec (.ldVxK x) s = .next { s with pc := s.pc - 2 })

/-- R153 with key events falling between the samples: the instruction always completes. Where the sample of key k is the first true one
in ascending order, V[x] is k and k + 1 samples have been made; where all 16 samples are false, pc goes back by 2. Before a
sample the events listed for it take effect, each as its key operation, in order, and the rest of the list is kept. The list of
key events is the model's own (log entry 6). -/
def Obligations.KeyWaitUnderKeyEvents : Prop :=
  (∀ (x : Reg) (s : State),
    (∀ k : Reg, sampleInScan s k = true → (∀ j : Reg, j < k → sampleInScan s j = false) →
      exec (.ldVxK x) s = .next ((deliverMany (k.val + 1) s).setV x (BitVec.ofNat 8 k.val))) ∧
    ((∀ k : Reg, sampleInScan s k = false) → exec (.ldVxK x) s = .next { deliverMany 16 s with pc := s.pc - 2 })) ∧
  (∀ (s : State) (e : KeyEvent) (now : List KeyEvent) (later : List (List KeyEvent)),
    (s.keyEvents = [] → deliverKeys s = s) ∧
    (s.keyEvents = [] :: later → deliverKeys s = { s with keyEvents := later }) ∧
    (s.keyEvents = (e :: now) :: later → deliverKeys s = deliverKeys { e.apply s with keyEvents := now :: later }))

/-- R153, the stall: a step that fetches Fx0A with no key pressed leaves the whole state as it was. -/
def Obligations.KeyWaitStallsTheStep : Prop :=
  ∀ (x : Reg) (s : State), s.faulted = false → s.pc.toNat ≤ 0xFFE → s.keyEvents = [] → (∀ k : Reg, s.key[k] = false) →
    decode (wordOfBytes (Memory.read s.mem s.pc.toNat) (Memory.read s.mem (s.pc.toNat + 1))) = .ldVxK x →
    step s = .next s

/-- R154, R155, R156: the timer instructions copy a whole byte, and change nothing else; after Fx18 the sound is active exactly when
the byte is not 0. -/
def Obligations.TimerAccessesCopyTheByte : Prop :=
  ∀ (x : Reg) (s : State),
    exec (.ldVxDt x) s = .next (s.setV x s.DT) ∧
    exec (.ldDtVx x) s = .next { s with DT := s.getV x } ∧
    ∃ t, exec (.ldStVx x) s = .next t ∧ t = { s with ST := s.getV x } ∧
      (isSoundActive t = true ↔ 0 < (s.getV x).toNat)

/-! ## The no-op class (46_reserved_nop.md) -/

/-- R160: a word of the no-op class completes and changes nothing but pc, by 2. -/
def Obligations.NoOpWordsOnlyAdvance : Prop :=
  (∀ (w : Word) (s : State), exec (.nop w) s = .next s) ∧
  (∀ s : State, s.faulted = false → s.pc.toNat ≤ 0xFFE →
    isNopWord (wordOfBytes (Memory.read s.mem s.pc.toNat) (Memory.read s.mem (s.pc.toNat + 1))) = true →
    step s = .next { s with pc := s.pc + 2 })

/-! ## The host interface (47_host_operations.md) -/

/-- R177, as often as it is invoked: each timer is down by the number of ticks, never below 0, and nothing else changes. -/
def Obligations.TicksCountDownAndStopAtZero : Prop :=
  ∀ (k : Nat) (s : State),
    (tickMany k s).DT.toNat = s.DT.toNat - k ∧ (tickMany k s).ST.toNat = s.ST.toNat - k ∧
    tickMany k s = { s with DT := (tickMany k s).DT, ST := (tickMany k s).ST }

/-- R173: a program of at most 3584 bytes lands from 0x200 on and nothing else changes; a longer one is refused (the spec's own
decision D13, log entry 10). -/
def Obligations.LoadProgramCopiesTheBytes : Prop :=
  ∀ (bytes : List Byte) (s : State),
    (Memory.wf s.mem = true → bytes.length ≤ 3584 →
      ∃ t, loadProgram bytes s = .next t ∧ t = { s with mem := t.mem } ∧
        (∀ (j : Nat) (h : j < bytes.length), Memory.read t.mem (0x200 + j) = bytes[j]) ∧
        ∀ a, a < 0x200 ∨ 0x200 + bytes.length ≤ a → Memory.read t.mem a = Memory.read s.mem a) ∧
    (3584 < bytes.length → loadProgram bytes s = .refused (.programTooLong bytes.length))

/-- R175, R176: a key operation sets its own key and no other state; an index outside 0 to 15 is ignored. -/
def Obligations.KeyOperationsSetOneKey : Prop :=
  ∀ (k : Int) (s : State),
    (0 ≤ k ∧ k ≤ 15 →
      setKeyDown k s = { s with key := (setKeyDown k s).key } ∧ setKeyUp k s = { s with key := (setKeyUp k s).key } ∧
      ∀ j : Reg, (setKeyDown k s).key[j] = (if (j.val : Int) = k then true else s.key[j]) ∧
        (setKeyUp k s).key[j] = (if (j.val : Int) = k then false else s.key[j])) ∧
    (k < 0 ∨ 15 < k → setKeyDown k s = s ∧ setKeyUp k s = s)

/-- R178, R179: `isSoundActive` is ST > 0; `consumeDirtyFramebuffer` hands over the grid and the old flag (the spec's decision D20, log
entry 20) and clears the flag; nothing else changes. -/
def Obligations.HostReadsOfSoundAndFramebuffer : Prop :=
  ∀ s : State,
    hostApply .isSoundActive (some s) = .ok (.sound (decide (0 < s.ST.toNat))) s ∧
    hostApply .consumeDirtyFramebuffer (some s) = .ok (.framebuffer s.fb s.dirty) { s with dirty := false }

/-- R172 and the spec's decision D11 (log entry 9): after `reset` every field of the spec's state is that of the state after reset,
whatever the core was; and before the first reset every other operation is refused. -/
def Obligations.ResetFromAnyState : Prop :=
  (∀ s : State, hostApply .reset (some s) = .ok .done { State.reset with
    keyEvents := s.keyEvents, rndDraws := s.rndDraws, faultDraws := s.faultDraws }) ∧
  hostApply .reset none = .ok .done State.reset ∧
  ∀ op : HostOp, op ≠ .reset → hostApply op none = .refused .neverReset

/-! ## Faults (60_exceptions.md) -/

/-- R200 to R208: an instruction completes exactly where it executes normally, and otherwise raises its own fault with the spec's
information; the execute phase refuses nothing. -/
def Obligations.ExecCompletesOrRaisesItsOwnFault : Prop :=
  ∀ (i : Instr) (s : State),
    (ExecutesNormally i s → ∃ t, exec i s = .next t) ∧
    (¬ ExecutesNormally i s → ∃ f, exec i s = .fault f ∧ IsOwnFault i s f)

/-- R206: after a faulting step the latch is set, and what differs from the state before lies in the footprint of R206's table: pc; VF,
covered cells and dirty for a draw; V[0] to V[x] for Fx65; the in-range bytes from I on for Fx33 and Fx55. The
footprint is the spec's own decision D3 (log entry 7); which cells a coordinate VF covers rests on the reading S (D4, log
entries 3 and 23). -/
def Obligations.FaultLeavesAllButTheFootprint : Prop :=
  ∀ (s t : State) (f : Fault), stepHost s = .ok (.fault f) t →
    t.faulted = true ∧ t.I = s.I ∧ t.stack = s.stack ∧ t.sp = s.sp ∧ t.DT = s.DT ∧ t.ST = s.ST ∧ t.key = s.key ∧
    (∀ r, t.getV r ≠ s.getV r →
      (∃ x y n, fetchedInstr s = some (.drw x y n) ∧ r = vF) ∨ (∃ x, fetchedInstr s = some (.ldVxI x) ∧ r.val ≤ x.val)) ∧
    (∀ a, Memory.read t.mem a ≠ Memory.read s.mem a →
      ∃ i, fetchedInstr s = some i ∧ effectiveAddress s 0 ≤ a ∧ a < effectiveAddress s (storeLength i) ∧ a ≤ 4095) ∧
    (∀ cx cy, t.fb.get cx cy ≠ s.fb.get cx cy →
      ∃ x y n, fetchedInstr s = some (.drw x y n) ∧ spriteCovers s x y n cx.val cy.val = true) ∧
    (t.dirty ≠ s.dirty → ∃ x y n, fetchedInstr s = some (.drw x y n))

/-! ## Whole-machine rules -/

/-- R22: an instruction changes no V register outside R22's lists of the registers it writes, VF included. -/
def Obligations.OnlyListedRegistersChange : Prop :=
  ∀ (i : Instr) (s t : State), exec i s = .next t → ∀ r, writesReg i r = false → t.getV r = s.getV r

/-- R24, R27, R42, R108: only Annn, Fx1E, Fx29 write I; only the listed instructions write pc beyond the fetch's advance; only CALL
and RET write sp, only CALL the stack. -/
def Obligations.OnlyListedInstructionsChangeControl : Prop :=
  ∀ (i : Instr) (s t : State), exec i s = .next t →
    (writesI i = false → t.I = s.I) ∧ (writesPc i = false → t.pc = s.pc) ∧
    ((∀ nnn, i ≠ .call nnn) → t.stack = s.stack ∧ (i ≠ .ret → t.sp = s.sp))

/-- R28, R29, R30, R31, R99, R124: a step writes DT only by Fx15, ST only by Fx18, the framebuffer and dirty only by 00E0 and Dxyn,
which set dirty; it consumes random bytes only by Cxkk; it never clears faulted. No instruction writes keys: the key state changes
within one only by the host's key events, which take effect at its samples. The list of key events (log entry 6) and the counters
of draws and faults (log entries 5 and 7) are the model's own. -/
def Obligations.OnlyListedInstructionsChangeDevices : Prop :=
  ∀ (i : Instr) (s t : State), exec i s = .next t →
    ((∀ x, i ≠ .ldDtVx x) → t.DT = s.DT) ∧ ((∀ x, i ≠ .ldStVx x) → t.ST = s.ST) ∧
    ((i = .cls ∨ ∃ x y n, i = .drw x y n) → t.dirty = true) ∧
    ((i ≠ .cls ∧ ∀ x y n, i ≠ .drw x y n) → t.fb = s.fb ∧ t.dirty = s.dirty) ∧
    ((samplesKeys i = false ∨ s.keyEvents = []) → t.key = s.key ∧ t.keyEvents = s.keyEvents) ∧
    t.rndDraws = s.rndDraws + randomBytesUsed i ∧ t.faulted = s.faulted ∧ t.faultDraws = s.faultDraws

/-- R32, R42, R130: only Fx33 and Fx55 write memory, and only the bytes they store at I. -/
def Obligations.OnlyStoresChangeMemory : Prop :=
  ∀ (i : Instr) (s t : State), exec i s = .next t →
    ∀ a, a < effectiveAddress s 0 ∨ effectiveAddress s (storeLength i) ≤ a → Memory.read t.mem a = Memory.read s.mem a

/-- R28, R30: no instruction reads dirty or ST: changing them changes no answer but in those two fields. -/
def Obligations.DirtyAndSoundAreInvisibleToPrograms : Prop :=
  ∀ (i : Instr) (s : State) (d : Bool) (v : Byte),
    (∀ t, exec i s = .next t → ∃ d' v', exec i { s with dirty := d, ST := v } = .next { t with dirty := d', ST := v' }) ∧
    (∀ f, exec i s = .fault f → exec i { s with dirty := d, ST := v } = .fault f)

/-- R26, R27, R206: every step keeps the invariant, from every state that meets it: canonical memory of 4096 bytes, return addresses
at most 0x1000, pc at most 0x10FE. -/
def Obligations.StepKeepsTheInvariant : Prop :=
  ∀ s t : State, s.Inv → step s = .next t → t.Inv

/-- R26: whatever the host invokes, also faulting steps, resets and loads, every event keeps the invariant; a core never reset has none
to keep. -/
def Obligations.EveryHostEventKeepsTheInvariant : Prop :=
  ∀ (op : HostOp) (core : Option State) (r : HostResult) (t : State), (∀ s, core = some s → s.Inv) →
    hostApply op core = .ok r t → t.Inv
end

