-- ==== Sys2Proof/Laws/Decode.lean ====
section
/-! SUPPORT. The fields of an encoded word: what R71's split gives on each format of R72. -/

namespace Sys2Proof.Laws

theorem toNat_append_eq {m n : Nat} (a : BitVec m) (b : BitVec n) : (a ++ b).toNat = a.toNat * 2 ^ n + b.toNat := by
  rw [BitVec.toNat_append, ← Nat.shiftLeft_add_eq_or_of_lt b.isLt, Nat.shiftLeft_eq]

theorem encodeNNN_toNat (g : Nibble) (nnn : Imm12) : (encodeNNN g nnn).toNat = g.toNat * 4096 + nnn.toNat :=
  toNat_append_eq g nnn

theorem encodeXKK_toNat (g : Nibble) (x : Reg) (kk : Byte) :
    (encodeXKK g x kk).toNat = g.toNat * 4096 + x.val * 256 + kk.toNat := by
  have h : (encodeXKK g x kk).toNat = g.toNat * 2 ^ 12 + (bitsOfReg x ++ kk).toNat := toNat_append_eq g (bitsOfReg x ++ kk)
  have h' : (bitsOfReg x ++ kk).toNat = x.val * 2 ^ 8 + kk.toNat := toNat_append_eq (bitsOfReg x) kk
  rw [h, h']; ring

theorem encodeXYN_toNat (g : Nibble) (x y : Reg) (n : Nibble) :
    (encodeXYN g x y n).toNat = g.toNat * 4096 + x.val * 256 + y.val * 16 + n.toNat := by
  have h : (encodeXYN g x y n).toNat = g.toNat * 2 ^ 12 + (bitsOfReg x ++ (bitsOfReg y ++ n)).toNat :=
    toNat_append_eq g (bitsOfReg x ++ (bitsOfReg y ++ n))
  have h' : (bitsOfReg x ++ (bitsOfReg y ++ n)).toNat = x.val * 2 ^ 8 + (bitsOfReg y ++ n).toNat :=
    toNat_append_eq (bitsOfReg x) (bitsOfReg y ++ n)
  have h'' : (bitsOfReg y ++ n).toNat = y.val * 2 ^ 4 + n.toNat := toNat_append_eq (bitsOfReg y) n
  rw [h, h', h'']; ring

theorem extract_toNat {w : Nat} (op : BitVec w) (lo len : Nat) :
    (op.extractLsb' lo len).toNat = op.toNat / 2 ^ lo % 2 ^ len := by
  simp [BitVec.extractLsb'_toNat, Nat.shiftRight_eq_div_pow]

theorem fields_group_toNat (op : Word) : (fields op).group.toNat = op.toNat / 4096 := by
  have := op.isLt
  show (op.extractLsb' 12 4).toNat = _
  rw [extract_toNat]; omega

theorem fields_x_val (op : Word) : (fields op).x.val = op.toNat / 256 % 16 := extract_toNat op 8 4

theorem fields_y_val (op : Word) : (fields op).y.val = op.toNat / 16 % 16 := extract_toNat op 4 4

theorem fields_n_toNat (op : Word) : (fields op).n.toNat = op.toNat % 16 := by
  show (op.extractLsb' 0 4).toNat = _
  rw [extract_toNat]; omega

theorem fields_kk_toNat (op : Word) : (fields op).kk.toNat = op.toNat % 256 := by
  show (op.extractLsb' 0 8).toNat = _
  rw [extract_toNat]; omega

theorem fields_nnn_toNat (op : Word) : (fields op).nnn.toNat = op.toNat % 4096 := by
  show (op.extractLsb' 0 12).toNat = _
  rw [extract_toNat]; omega

/-! ### Format NNN -/

@[simp] theorem fields_NNN_group (g : Nibble) (nnn : Imm12) : (fields (encodeNNN g nnn)).group = g := by
  have := nnn.isLt
  apply BitVec.eq_of_toNat_eq; rw [fields_group_toNat, encodeNNN_toNat]; omega

@[simp] theorem fields_NNN_nnn (g : Nibble) (nnn : Imm12) : (fields (encodeNNN g nnn)).nnn = nnn := by
  have := nnn.isLt
  apply BitVec.eq_of_toNat_eq; rw [fields_nnn_toNat, encodeNNN_toNat]; omega

/-! ### Formats XKK and XS -/

@[simp] theorem fields_XKK_group (g : Nibble) (x : Reg) (kk : Byte) : (fields (encodeXKK g x kk)).group = g := by
  have := kk.isLt
  have := x.isLt
  apply BitVec.eq_of_toNat_eq; rw [fields_group_toNat, encodeXKK_toNat]; omega

@[simp] theorem fields_XKK_x (g : Nibble) (x : Reg) (kk : Byte) : (fields (encodeXKK g x kk)).x = x := by
  have := kk.isLt
  have := x.isLt
  apply Fin.ext; rw [fields_x_val, encodeXKK_toNat]; omega

@[simp] theorem fields_XKK_kk (g : Nibble) (x : Reg) (kk : Byte) : (fields (encodeXKK g x kk)).kk = kk := by
  have := kk.isLt
  apply BitVec.eq_of_toNat_eq; rw [fields_kk_toNat, encodeXKK_toNat]; omega

/-! ### Formats XY and XYN -/

@[simp] theorem fields_XYN_group (g : Nibble) (x y : Reg) (n : Nibble) : (fields (encodeXYN g x y n)).group = g := by
  have := n.isLt
  have := x.isLt
  have := y.isLt
  apply BitVec.eq_of_toNat_eq; rw [fields_group_toNat, encodeXYN_toNat]; omega

@[simp] theorem fields_XYN_x (g : Nibble) (x y : Reg) (n : Nibble) : (fields (encodeXYN g x y n)).x = x := by
  have := n.isLt
  have := x.isLt
  have := y.isLt
  apply Fin.ext; rw [fields_x_val, encodeXYN_toNat]; omega

@[simp] theorem fields_XYN_y (g : Nibble) (x y : Reg) (n : Nibble) : (fields (encodeXYN g x y n)).y = y := by
  have := n.isLt
  have := y.isLt
  apply Fin.ext; rw [fields_y_val, encodeXYN_toNat]; omega

@[simp] theorem fields_XYN_n (g : Nibble) (x y : Reg) (n : Nibble) : (fields (encodeXYN g x y n)).n = n := by
  have := n.isLt
  apply BitVec.eq_of_toNat_eq; rw [fields_n_toNat, encodeXYN_toNat]; omega

/-- A word is the two bytes it is laid out as (R53). -/
theorem wordOfBytes_bytesOfWord (w : Word) : wordOfBytes (bytesOfWord w).1 (bytesOfWord w).2 = w := by
  apply BitVec.eq_of_toNat_eq
  have := w.isLt
  show ((w.extractLsb' 8 8) ++ (w.extractLsb' 0 8) : BitVec (8 + 8)).toNat = w.toNat
  rw [toNat_append_eq, extract_toNat, extract_toNat]
  omega

end Sys2Proof.Laws
end

