-- ==== Sys2Proof/Laws/Memory.lean ====
section
/-! SUPPORT. Laws of memory: what a read gives after a write, that every memory operation keeps the canonical form, that
canonical memories with equal reads are equal, and what a run of byte stores does. -/

namespace Sys2Proof.Laws

open Sys2Proof.Machine

theorem read_cons_pair (a : Nat) (v : Byte) (m : Memory) (b : Nat) :
    Memory.read ((a, v) :: m) b = if b = a then v else Memory.read m b := rfl

/-- In a canonical form read from `lo` on, every address below `lo` is unlisted. -/
theorem read_below {m : Memory} {lo a : Nat} (h : Memory.wfFrom lo m = true) (ha : a < lo) :
    Memory.read m a = Memory.background a := by
  induction m generalizing lo with
  | nil => rfl
  | cons p m ih =>
    obtain ⟨b, v⟩ := p
    simp only [Memory.wfFrom, Bool.and_eq_true, decide_eq_true_eq] at h
    rw [read_cons_pair, if_neg (by omega)]
    exact ih h.2 (by omega)

theorem wfFrom_mono {m : Memory} {lo lo' : Nat} (h : Memory.wfFrom lo m = true) (hle : lo' ≤ lo) :
    Memory.wfFrom lo' m = true := by
  cases m with
  | nil => rfl
  | cons p m =>
    obtain ⟨b, v⟩ := p
    simp only [Memory.wfFrom, Bool.and_eq_true, decide_eq_true_eq] at h ⊢
    exact ⟨⟨⟨by omega, h.1.1.2⟩, h.1.2⟩, h.2⟩

theorem read_cons_same {m : Memory} {a : Nat} (v : Byte) (h : Memory.read m a = Memory.background a) :
    Memory.read (Memory.cons a v m) a = v := by
  unfold Memory.cons
  split
  · rename_i hv; rw [h, hv]
  · simp [Memory.read]

theorem read_cons_other {m : Memory} {a b : Nat} (v : Byte) (h : b ≠ a) :
    Memory.read (Memory.cons a v m) b = Memory.read m b := by
  unfold Memory.cons
  split
  · rfl
  · simp [Memory.read, h]

theorem wfFrom_cons {m : Memory} {lo a : Nat} (v : Byte) (hlo : lo ≤ a) (ha : a < Config.memSize)
    (h : Memory.wfFrom (a + 1) m = true) : Memory.wfFrom lo (Memory.cons a v m) = true := by
  unfold Memory.cons
  split
  · exact wfFrom_mono h (by omega)
  · rename_i hv
    simp [Memory.wfFrom, hlo, ha, hv, h]

/-- A write leaves every other address alone. -/
theorem read_write_other (m : Memory) {a b : Nat} (v : Byte) (h : b ≠ a) :
    Memory.read (Memory.write m a v) b = Memory.read m b := by
  induction m with
  | nil => exact read_cons_other v h
  | cons p m ih =>
    obtain ⟨c, w⟩ := p
    unfold Memory.write
    split
    · exact read_cons_other v h
    · split
      · rename_i hac
        rw [read_cons_other v h, read_cons_pair, if_neg (by omega)]
      · rw [read_cons_pair, read_cons_pair, ih]

/-- A read after a write to the same address gives the value written, in every canonical memory (and every memory whose listed
addresses rise from some `lo` on). -/
theorem read_write_same {m : Memory} {lo : Nat} (h : Memory.wfFrom lo m = true) (a : Nat) (v : Byte) :
    Memory.read (Memory.write m a v) a = v := by
  induction m generalizing lo with
  | nil => exact read_cons_same v rfl
  | cons p m ih =>
    obtain ⟨c, w⟩ := p
    have hm : Memory.wfFrom (c + 1) m = true := by
      simp only [Memory.wfFrom, Bool.and_eq_true] at h; exact h.2
    unfold Memory.write
    split
    · rename_i hac
      refine read_cons_same v ?_
      rw [read_cons_pair, if_neg (by omega)]
      exact read_below hm (by omega)
    · split
      · rename_i hac
        exact read_cons_same v (read_below hm (by omega))
      · rename_i hac
        rw [read_cons_pair, if_neg hac]
        exact ih hm

theorem wfFrom_write {m : Memory} {lo a : Nat} (v : Byte) (h : Memory.wfFrom lo m = true) (hlo : lo ≤ a)
    (ha : a < Config.memSize) : Memory.wfFrom lo (Memory.write m a v) = true := by
  induction m generalizing lo with
  | nil => exact wfFrom_cons v hlo ha rfl
  | cons p m ih =>
    obtain ⟨c, w⟩ := p
    have h' := h
    simp only [Memory.wfFrom, Bool.and_eq_true, decide_eq_true_eq] at h'
    unfold Memory.write
    split
    · rename_i hac
      refine wfFrom_cons v hlo ha ?_
      simp only [Memory.wfFrom, Bool.and_eq_true, decide_eq_true_eq]
      exact ⟨⟨⟨by omega, h'.1.1.2⟩, h'.1.2⟩, h'.2⟩
    · split
      · rename_i hac
        exact wfFrom_cons v hlo ha (by rw [hac]; exact h'.2)
      · simp only [Memory.wfFrom, Bool.and_eq_true, decide_eq_true_eq]
        exact ⟨⟨⟨h'.1.1.1, h'.1.1.2⟩, h'.1.2⟩, ih h'.2 (by omega)⟩

/-- A write in range keeps the canonical form. -/
theorem wf_write {m : Memory} {a : Nat} (v : Byte) (h : Memory.wf m = true) (ha : a < Config.memSize) :
    Memory.wf (Memory.write m a v) = true := wfFrom_write v h (Nat.zero_le a) ha

/-- In a canonical form no address outside the 4096 bytes is listed. -/
theorem read_above {m : Memory} {lo a : Nat} (h : Memory.wfFrom lo m = true) (ha : Config.memSize ≤ a) :
    Memory.read m a = Memory.background a := by
  induction m generalizing lo with
  | nil => rfl
  | cons p m ih =>
    obtain ⟨b, v⟩ := p
    simp only [Memory.wfFrom, Bool.and_eq_true, decide_eq_true_eq] at h
    rw [read_cons_pair, if_neg (by omega)]
    exact ih h.2

theorem wfFrom_ext {m m' : Memory} {lo : Nat} (h : Memory.wfFrom lo m = true) (h' : Memory.wfFrom lo m' = true)
    (hr : ∀ a, Memory.read m a = Memory.read m' a) : m = m' := by
  induction m generalizing m' lo with
  | nil =>
    cases m' with
    | nil => rfl
    | cons p m' =>
      obtain ⟨b, v⟩ := p
      simp only [Memory.wfFrom, Bool.and_eq_true, decide_eq_true_eq] at h'
      exact absurd (by simpa [Memory.read] using (hr b).symm) h'.1.2
  | cons p m ih =>
    obtain ⟨b, v⟩ := p
    have hb := h
    simp only [Memory.wfFrom, Bool.and_eq_true, decide_eq_true_eq] at hb
    cases m' with
    | nil => exact absurd (by simpa [Memory.read] using hr b) hb.1.2
    | cons p' m' =>
      obtain ⟨c, w⟩ := p'
      have hc := h'
      simp only [Memory.wfFrom, Bool.and_eq_true, decide_eq_true_eq] at hc
      have hbc : b = c := by
        rcases Nat.lt_trichotomy b c with hlt | heq | hgt
        · have := hr b
          rw [read_cons_pair, if_pos rfl, read_cons_pair, if_neg (by omega), read_below hc.2 (by omega)] at this
          exact absurd this hb.1.2
        · exact heq
        · have := hr c
          rw [read_cons_pair, if_neg (by omega), read_cons_pair, if_pos rfl, read_below hb.2 (by omega)] at this
          exact absurd this.symm hc.1.2
      subst hbc
      have hvw : v = w := by simpa [Memory.read] using hr b
      subst hvw
      have : m = m' := by
        refine ih hb.2 hc.2 fun a => ?_
        by_cases hab : a = b
        · subst hab
          rw [read_below hb.2 (by omega), read_below hc.2 (by omega)]
        · simpa [Memory.read, hab] using hr a
      rw [this]

/-- Canonical memories that read the same everywhere are equal data. -/
theorem wf_ext {m m' : Memory} (h : Memory.wf m = true) (h' : Memory.wf m' = true)
    (hr : ∀ a, Memory.read m a = Memory.read m' a) : m = m' := wfFrom_ext h h' hr

theorem wf_writeList {m : Memory} {a : Nat} {vs : List Byte} (h : Memory.wf m = true)
    (ha : a + vs.length ≤ Config.memSize) : Memory.wf (Memory.writeList m a vs) = true := by
  induction vs generalizing m a with
  | nil => exact h
  | cons v vs ih =>
    simp only [List.length_cons] at ha
    exact ih (wf_write v h (by omega)) (by omega)

/-- A run of writes leaves every address outside it alone. -/
theorem read_writeList_outside (m : Memory) {a b : Nat} {vs : List Byte} (h : b < a ∨ a + vs.length ≤ b) :
    Memory.read (Memory.writeList m a vs) b = Memory.read m b := by
  induction vs generalizing m a with
  | nil => rfl
  | cons v vs ih =>
    simp only [List.length_cons] at h
    unfold Memory.writeList
    rw [ih _ (by omega), read_write_other m v (by omega)]

/-- A run of writes gives each of its addresses its byte. -/
theorem read_writeList_inside {m : Memory} {a : Nat} {vs : List Byte} (h : Memory.wf m = true)
    (ha : a + vs.length ≤ Config.memSize) (j : Nat) (hj : j < vs.length) :
    Memory.read (Memory.writeList m a vs) (a + j) = vs[j] := by
  induction vs generalizing m a j with
  | nil => simp at hj
  | cons v vs ih =>
    simp only [List.length_cons] at ha hj
    unfold Memory.writeList
    cases j with
    | zero => simpa using (read_writeList_outside _ (Or.inl (by omega))).trans (read_write_same h a v)
    | succ j =>
      have := ih (m := Memory.write m a v) (a := a + 1) (wf_write v h (by omega)) (by omega) j (by omega)
      rw [show a + (j + 1) = a + 1 + j by omega, this]
      rfl

/-- What a checked run of byte stores does when it fits. -/
theorem storeBytes_fits (m : Memory) {a : Nat} {vs : List Byte} (h : a + vs.length ≤ Config.memSize) :
    storeBytes m a vs = .ok (Memory.writeList m a vs) := by
  induction vs generalizing m a with
  | nil => rfl
  | cons v vs ih =>
    simp only [List.length_cons] at h
    simp only [storeBytes, writeMem, if_pos (show a < Config.memSize by omega), Memory.writeList]
    exact ih _ (by omega)

/-- What it does when it does not fit: WRITE_OOB at the first address above 4095. -/
theorem storeBytes_out (m : Memory) {a : Nat} {vs : List Byte} (hne : vs ≠ []) (h : Config.memSize < a + vs.length) :
    storeBytes m a vs = .error (.writeOob (max a Config.memSize)) := by
  induction vs generalizing m a with
  | nil => exact absurd rfl hne
  | cons v vs ih =>
    simp only [List.length_cons] at h
    by_cases ha : a < Config.memSize
    · simp only [storeBytes, writeMem, if_pos ha]
      have hne' : vs ≠ [] := by rintro rfl; simp at h; omega
      rw [ih _ hne' (by omega)]
      congr 2; omega
    · simp only [storeBytes, writeMem, if_neg ha]
      congr 2; omega

/-- Every checked run of byte stores that succeeds keeps the canonical form. -/
theorem wf_storeBytes {m m' : Memory} {a : Nat} {vs : List Byte} (h : Memory.wf m = true)
    (hs : storeBytes m a vs = .ok m') : Memory.wf m' = true := by
  induction vs generalizing m a with
  | nil => simp only [storeBytes, Except.ok.injEq] at hs; rw [← hs]; exact h
  | cons v vs ih =>
    simp only [storeBytes, writeMem] at hs
    split at hs
    · rename_i hw
      split at hw
      · rename_i ha
        simp only [Except.ok.injEq] at hw
        exact ih (hw ▸ wf_write v h ha) hs
      · simp at hw
    · simp at hs

/-- The bytes a fault leaves unspecified keep the canonical form (R206). -/
theorem wf_unspecifiedBytes (d : Nat) {m : Memory} (a len : Nat) (h : Memory.wf m = true) :
    Memory.wf (unspecifiedBytes d m a len) = true := by
  unfold unspecifiedBytes
  by_cases ha : a ≤ Config.memSize
  · refine wf_writeList h ?_
    simp only [List.length_map, List.length_range]
    omega
  · have : min len (Config.memSize - a) = 0 := by omega
    rw [this]
    exact h

/-- The bytes outside those a fault leaves unspecified are unchanged (R206). -/
theorem read_unspecifiedBytes_outside (d : Nat) (m : Memory) {a len b : Nat} (h : b < a ∨ a + len ≤ b ∨ Config.memSize ≤ b) :
    Memory.read (unspecifiedBytes d m a len) b = Memory.read m b := by
  unfold unspecifiedBytes
  by_cases hb : b < a
  · exact read_writeList_outside m (Or.inl hb)
  · refine read_writeList_outside m (Or.inr ?_)
    simp only [List.length_map, List.length_range]
    omega

end Sys2Proof.Laws
end

