-- ==== Sys2Proof/Laws/State.lean ====
section
/-! SUPPORT. One lemma per field per update, so that no later proof unfolds a record update; and what reading a register gives
after writing one. -/

namespace Sys2Proof.Laws

open Sys2Proof.Machine

/-! ### Writing a register -/

@[simp] theorem setV_mem (s : State) (r : Reg) (v : Byte) : (s.setV r v).mem = s.mem := rfl
@[simp] theorem setV_I (s : State) (r : Reg) (v : Byte) : (s.setV r v).I = s.I := rfl
@[simp] theorem setV_pc (s : State) (r : Reg) (v : Byte) : (s.setV r v).pc = s.pc := rfl
@[simp] theorem setV_stack (s : State) (r : Reg) (v : Byte) : (s.setV r v).stack = s.stack := rfl
@[simp] theorem setV_sp (s : State) (r : Reg) (v : Byte) : (s.setV r v).sp = s.sp := rfl
@[simp] theorem setV_DT (s : State) (r : Reg) (v : Byte) : (s.setV r v).DT = s.DT := rfl
@[simp] theorem setV_ST (s : State) (r : Reg) (v : Byte) : (s.setV r v).ST = s.ST := rfl
@[simp] theorem setV_fb (s : State) (r : Reg) (v : Byte) : (s.setV r v).fb = s.fb := rfl
@[simp] theorem setV_dirty (s : State) (r : Reg) (v : Byte) : (s.setV r v).dirty = s.dirty := rfl
@[simp] theorem setV_key (s : State) (r : Reg) (v : Byte) : (s.setV r v).key = s.key := rfl
@[simp] theorem setV_faulted (s : State) (r : Reg) (v : Byte) : (s.setV r v).faulted = s.faulted := rfl
@[simp] theorem setV_keyEvents (s : State) (r : Reg) (v : Byte) : (s.setV r v).keyEvents = s.keyEvents := rfl
@[simp] theorem setV_rndDraws (s : State) (r : Reg) (v : Byte) : (s.setV r v).rndDraws = s.rndDraws := rfl
@[simp] theorem setV_faultDraws (s : State) (r : Reg) (v : Byte) : (s.setV r v).faultDraws = s.faultDraws := rfl

/-! ### The advance of pc -/

@[simp] theorem advance_mem (s : State) : (s.advance).mem = s.mem := rfl
@[simp] theorem advance_V (s : State) : (s.advance).V = s.V := rfl
@[simp] theorem advance_I (s : State) : (s.advance).I = s.I := rfl
@[simp] theorem advance_stack (s : State) : (s.advance).stack = s.stack := rfl
@[simp] theorem advance_sp (s : State) : (s.advance).sp = s.sp := rfl
@[simp] theorem advance_DT (s : State) : (s.advance).DT = s.DT := rfl
@[simp] theorem advance_ST (s : State) : (s.advance).ST = s.ST := rfl
@[simp] theorem advance_fb (s : State) : (s.advance).fb = s.fb := rfl
@[simp] theorem advance_dirty (s : State) : (s.advance).dirty = s.dirty := rfl
@[simp] theorem advance_key (s : State) : (s.advance).key = s.key := rfl
@[simp] theorem advance_faulted (s : State) : (s.advance).faulted = s.faulted := rfl
@[simp] theorem advance_keyEvents (s : State) : (s.advance).keyEvents = s.keyEvents := rfl
@[simp] theorem advance_rndDraws (s : State) : (s.advance).rndDraws = s.rndDraws := rfl
@[simp] theorem advance_faultDraws (s : State) : (s.advance).faultDraws = s.faultDraws := rfl

@[simp] theorem advance_pc (s : State) : s.advance.pc = s.pc + 2 := rfl

/-! ### A conditional skip -/

@[simp] theorem skipIf_mem (s : State) (c : Bool) : (s.skipIf c).mem = s.mem := by cases c <;> rfl
@[simp] theorem skipIf_V (s : State) (c : Bool) : (s.skipIf c).V = s.V := by cases c <;> rfl
@[simp] theorem skipIf_I (s : State) (c : Bool) : (s.skipIf c).I = s.I := by cases c <;> rfl
@[simp] theorem skipIf_stack (s : State) (c : Bool) : (s.skipIf c).stack = s.stack := by cases c <;> rfl
@[simp] theorem skipIf_sp (s : State) (c : Bool) : (s.skipIf c).sp = s.sp := by cases c <;> rfl
@[simp] theorem skipIf_DT (s : State) (c : Bool) : (s.skipIf c).DT = s.DT := by cases c <;> rfl
@[simp] theorem skipIf_ST (s : State) (c : Bool) : (s.skipIf c).ST = s.ST := by cases c <;> rfl
@[simp] theorem skipIf_fb (s : State) (c : Bool) : (s.skipIf c).fb = s.fb := by cases c <;> rfl
@[simp] theorem skipIf_dirty (s : State) (c : Bool) : (s.skipIf c).dirty = s.dirty := by cases c <;> rfl
@[simp] theorem skipIf_key (s : State) (c : Bool) : (s.skipIf c).key = s.key := by cases c <;> rfl
@[simp] theorem skipIf_faulted (s : State) (c : Bool) : (s.skipIf c).faulted = s.faulted := by cases c <;> rfl
@[simp] theorem skipIf_keyEvents (s : State) (c : Bool) : (s.skipIf c).keyEvents = s.keyEvents := by cases c <;> rfl
@[simp] theorem skipIf_rndDraws (s : State) (c : Bool) : (s.skipIf c).rndDraws = s.rndDraws := by cases c <;> rfl
@[simp] theorem skipIf_faultDraws (s : State) (c : Bool) : (s.skipIf c).faultDraws = s.faultDraws := by cases c <;> rfl

@[simp] theorem skipIf_pc (s : State) (c : Bool) : (s.skipIf c).pc = if c then s.pc + 2 else s.pc := by cases c <;> rfl

/-! ### A random draw -/

@[simp] theorem drawRandom_mem (s : State) : (drawRandom s).2.mem = s.mem := rfl
@[simp] theorem drawRandom_V (s : State) : (drawRandom s).2.V = s.V := rfl
@[simp] theorem drawRandom_I (s : State) : (drawRandom s).2.I = s.I := rfl
@[simp] theorem drawRandom_pc (s : State) : (drawRandom s).2.pc = s.pc := rfl
@[simp] theorem drawRandom_stack (s : State) : (drawRandom s).2.stack = s.stack := rfl
@[simp] theorem drawRandom_sp (s : State) : (drawRandom s).2.sp = s.sp := rfl
@[simp] theorem drawRandom_DT (s : State) : (drawRandom s).2.DT = s.DT := rfl
@[simp] theorem drawRandom_ST (s : State) : (drawRandom s).2.ST = s.ST := rfl
@[simp] theorem drawRandom_fb (s : State) : (drawRandom s).2.fb = s.fb := rfl
@[simp] theorem drawRandom_dirty (s : State) : (drawRandom s).2.dirty = s.dirty := rfl
@[simp] theorem drawRandom_key (s : State) : (drawRandom s).2.key = s.key := rfl
@[simp] theorem drawRandom_faulted (s : State) : (drawRandom s).2.faulted = s.faulted := rfl
@[simp] theorem drawRandom_keyEvents (s : State) : (drawRandom s).2.keyEvents = s.keyEvents := rfl
@[simp] theorem drawRandom_faultDraws (s : State) : (drawRandom s).2.faultDraws = s.faultDraws := rfl
@[simp] theorem drawRandom_rndDraws (s : State) : (drawRandom s).2.rndDraws = s.rndDraws + 1 := rfl
@[simp] theorem drawRandom_byte (s : State) : (drawRandom s).1 = Config.randomByte s.rndDraws := rfl

/-! ### Key events taking effect before a sample -/

@[simp] theorem deliverKeys_mem (s : State) : (deliverKeys s).mem = s.mem := by unfold deliverKeys; split <;> rfl
@[simp] theorem deliverKeys_V (s : State) : (deliverKeys s).V = s.V := by unfold deliverKeys; split <;> rfl
@[simp] theorem deliverKeys_I (s : State) : (deliverKeys s).I = s.I := by unfold deliverKeys; split <;> rfl
@[simp] theorem deliverKeys_pc (s : State) : (deliverKeys s).pc = s.pc := by unfold deliverKeys; split <;> rfl
@[simp] theorem deliverKeys_stack (s : State) : (deliverKeys s).stack = s.stack := by unfold deliverKeys; split <;> rfl
@[simp] theorem deliverKeys_sp (s : State) : (deliverKeys s).sp = s.sp := by unfold deliverKeys; split <;> rfl
@[simp] theorem deliverKeys_DT (s : State) : (deliverKeys s).DT = s.DT := by unfold deliverKeys; split <;> rfl
@[simp] theorem deliverKeys_ST (s : State) : (deliverKeys s).ST = s.ST := by unfold deliverKeys; split <;> rfl
@[simp] theorem deliverKeys_fb (s : State) : (deliverKeys s).fb = s.fb := by unfold deliverKeys; split <;> rfl
@[simp] theorem deliverKeys_dirty (s : State) : (deliverKeys s).dirty = s.dirty := by unfold deliverKeys; split <;> rfl
@[simp] theorem deliverKeys_faulted (s : State) : (deliverKeys s).faulted = s.faulted := by unfold deliverKeys; split <;> rfl
@[simp] theorem deliverKeys_rndDraws (s : State) : (deliverKeys s).rndDraws = s.rndDraws := by unfold deliverKeys; split <;> rfl
@[simp] theorem deliverKeys_faultDraws (s : State) : (deliverKeys s).faultDraws = s.faultDraws := by unfold deliverKeys; split <;> rfl

/-! ### A tick -/

@[simp] theorem tickTimers_mem (s : State) : (tickTimers s).mem = s.mem := rfl
@[simp] theorem tickTimers_V (s : State) : (tickTimers s).V = s.V := rfl
@[simp] theorem tickTimers_I (s : State) : (tickTimers s).I = s.I := rfl
@[simp] theorem tickTimers_pc (s : State) : (tickTimers s).pc = s.pc := rfl
@[simp] theorem tickTimers_stack (s : State) : (tickTimers s).stack = s.stack := rfl
@[simp] theorem tickTimers_sp (s : State) : (tickTimers s).sp = s.sp := rfl
@[simp] theorem tickTimers_fb (s : State) : (tickTimers s).fb = s.fb := rfl
@[simp] theorem tickTimers_dirty (s : State) : (tickTimers s).dirty = s.dirty := rfl
@[simp] theorem tickTimers_key (s : State) : (tickTimers s).key = s.key := rfl
@[simp] theorem tickTimers_faulted (s : State) : (tickTimers s).faulted = s.faulted := rfl
@[simp] theorem tickTimers_keyEvents (s : State) : (tickTimers s).keyEvents = s.keyEvents := rfl
@[simp] theorem tickTimers_rndDraws (s : State) : (tickTimers s).rndDraws = s.rndDraws := rfl
@[simp] theorem tickTimers_faultDraws (s : State) : (tickTimers s).faultDraws = s.faultDraws := rfl

@[simp] theorem tickTimers_DT (s : State) : (tickTimers s).DT = tickTimer s.DT := rfl
@[simp] theorem tickTimers_ST (s : State) : (tickTimers s).ST = tickTimer s.ST := rfl

/-! ### Reading a register after writing one -/

@[simp] theorem getV_setV_same (s : State) (r : Reg) (v : Byte) : (s.setV r v).getV r = v := by
  simp [State.getV, State.setV]

theorem getV_setV_other (s : State) {r q : Reg} (v : Byte) (h : q ≠ r) : (s.setV r v).getV q = s.getV q := by
  have : ¬ (r.val = q.val) := fun e => h (Fin.ext e.symm)
  simp [State.getV, State.setV, this]

theorem getV_setV (s : State) (r q : Reg) (v : Byte) : (s.setV r v).getV q = if q = r then v else s.getV q := by
  by_cases h : q = r
  · subst h; simp
  · rw [getV_setV_other s v h, if_neg h]

/-- A second write to the same register replaces the first. -/
@[simp] theorem setV_setV (s : State) (r : Reg) (v w : Byte) : (s.setV r v).setV r w = s.setV r w := by
  simp [State.setV]

/-- Writing back the value a register holds changes nothing. -/
@[simp] theorem setV_getV (s : State) (r : Reg) : s.setV r (s.getV r) = s := by
  have : s.V.set r.val (s.V[r.val]) r.isLt = s.V := by ext i hi; simp
  simp only [State.setV, State.getV, Fin.getElem_fin, this]

/-- Two register files are equal when every register reads the same. -/
theorem V_ext {s t : State} (h : ∀ r, s.getV r = t.getV r) : s.V = t.V := by
  ext i hi
  have := h ⟨i, hi⟩
  simp only [State.getV, Fin.getElem_fin] at this
  rw [this]

end Sys2Proof.Laws
end

