-- ==== Sys2Proof/Laws/Ops.lean ====
section
/-! SUPPORT. One lemma per shared operation that says everything it can do: bounded reads, the fetch, push and pop, key samples
and the scan, the loads, the flag-and-result rows, drawing, and what a fault leaves. -/

namespace Sys2Proof.Laws

open Sys2Proof.Machine

/-! ### Bounded reads and the fetch -/

theorem readMem_in (oob : Fault) (m : Memory) {a : Nat} (h : a < Config.memSize) : readMem oob m a = .ok (Memory.read m a) :=
  if_pos h

theorem readMem_out (oob : Fault) (m : Memory) {a : Nat} (h : Config.memSize ≤ a) : readMem oob m a = .error oob :=
  if_neg (by omega)

/-- A fetch succeeds exactly when pc ≤ 0xFFE, with the big-endian word at pc (R91). -/
theorem fetch_in {s : State} (h : s.pc.toNat ≤ 0xFFE) :
    fetch s = .ok (wordOfBytes (Memory.read s.mem s.pc.toNat) (Memory.read s.mem (s.pc.toNat + 1))) := by
  have h1 : s.pc.toNat < Config.memSize := Nat.lt_of_le_of_lt h (by decide)
  have h2 : s.pc.toNat + 1 < Config.memSize := Nat.lt_of_le_of_lt (Nat.succ_le_succ h) (by decide)
  simp only [fetch, readMem_in _ _ h1, readMem_in _ _ h2]

/-- Otherwise it is FETCH_OOB(pc) (R91, R203). -/
theorem fetch_out {s : State} (h : 0xFFE < s.pc.toNat) : fetch s = .error (.fetchOob s.pc.toNat) := by
  have h2 : Config.memSize ≤ s.pc.toNat + 1 := by
    have : Config.memSize = 4096 := rfl
    omega
  by_cases h1 : s.pc.toNat < Config.memSize
  · simp only [fetch, readMem_in _ _ h1, readMem_out _ _ h2]
  · simp only [fetch, readMem_out _ _ (Nat.le_of_not_lt h1)]

/-! ### The return stack -/

theorem push_room {s : State} (w : Word) (h : s.sp.val < 16) :
    push s w = .ok { s with stack := s.stack.set s.sp.val w h, sp := ⟨s.sp.val + 1, by omega⟩ } := dif_pos h

theorem push_full {s : State} (w : Word) (h : s.sp.val = 16) : push s w = .error (.stackOverflow (instrAddress s)) :=
  dif_neg (by omega)

theorem pop_some {s : State} (h : 0 < s.sp.val) :
    pop s = .ok (s.stack[s.sp.val - 1]'(by omega), { s with sp := ⟨s.sp.val - 1, by omega⟩ }) := dif_pos h

theorem pop_empty {s : State} (h : s.sp.val = 0) : pop s = .error (.stackUnderflow (instrAddress s)) := dif_neg (by omega)

/-! ### Keys -/

theorem deliverKeys_none {s : State} (h : s.keyEvents = []) : deliverKeys s = s := by
  unfold deliverKeys; rw [h]

theorem deliverKeys_some {s : State} {now : List KeyEvent} {later : List (List KeyEvent)} (h : s.keyEvents = now :: later) :
    deliverKeys s = { s with key := now.foldl (fun key e => setKey key e.key e.down) s.key, keyEvents := later } := by
  unfold deliverKeys; rw [h]

/-- A sample with no key event before it reads the key state and changes nothing. -/
theorem keySample_none {s : State} (k : Reg) (h : s.keyEvents = []) : keySample s k = (s.key[k], s) := by
  simp only [keySample, deliverKeys_none h]

/-- With no key event in the way, a scan finds the first pressed key of its list and changes nothing. -/
theorem scanKeys_none {s : State} (h : s.keyEvents = []) (ks : List Reg) :
    scanKeys ks s = (ks.find? fun k => s.key[k], s) := by
  induction ks with
  | nil => rfl
  | cons k ks ih =>
    cases hk : s.key[k] with
    | true => simp only [scanKeys, keySample_none k h, hk, if_true, List.find?_cons_of_pos]
    | false => simp only [scanKeys, keySample_none k h, hk, ih, Bool.false_eq_true, if_false, not_false_eq_true,
        List.find?_cons_of_neg]

theorem deliverKeys_keeps (s : State) : ∃ key events, deliverKeys s = { s with key := key, keyEvents := events } := by
  cases h : s.keyEvents with
  | nil => exact ⟨s.key, s.keyEvents, deliverKeys_none h⟩
  | cons now later => exact ⟨_, _, deliverKeys_some h⟩

/-- A scan changes only the key state and the key events still to come. -/
theorem scanKeys_keeps (ks : List Reg) (s : State) :
    ∃ key events, (scanKeys ks s).2 = { s with key := key, keyEvents := events } := by
  induction ks generalizing s with
  | nil => exact ⟨s.key, s.keyEvents, rfl⟩
  | cons k ks ih =>
    obtain ⟨key, events, hd⟩ := deliverKeys_keeps s
    cases hk : (keySample s k).1 with
    | true => exact ⟨key, events, by simp only [scanKeys, hk, if_true]; exact hd⟩
    | false =>
      obtain ⟨key', events', hi⟩ := ih (keySample s k).2
      refine ⟨key', events', ?_⟩
      simp only [scanKeys, hk, Bool.false_eq_true, if_false]
      rw [hi, show (keySample s k).2 = _ from hd]

/-- The key a scan answers is in its list and was pressed at its sample, the last one made. -/
theorem scanKeys_found {ks : List Reg} {s : State} {k : Reg} (h : (scanKeys ks s).1 = some k) :
    k ∈ ks ∧ (scanKeys ks s).2.key[k] = true := by
  induction ks generalizing s with
  | nil => simp [scanKeys] at h
  | cons k' ks ih =>
    cases hk : (keySample s k').1 with
    | true =>
      simp only [scanKeys, hk, if_true, Option.some.injEq] at h ⊢
      subst h
      exact ⟨List.mem_cons_self, hk⟩
    | false =>
      simp only [scanKeys, hk, Bool.false_eq_true, if_false] at h ⊢
      exact ⟨List.mem_cons_of_mem _ (ih h).1, (ih h).2⟩

/-! ### The rows that write a flag and a result -/

/-- Such a row writes registers only, and only V[x] and VF, under every reading. -/
theorem writeFlagAndResult_frame (rd : Config.AliasReading) (fl re : Byte → Byte → Byte) (x y : Reg) (s : State) :
    writeFlagAndResult rd fl re x y s = { s with V := (writeFlagAndResult rd fl re x y s).V } ∧
      ∀ r, r ≠ x → r ≠ vF → (writeFlagAndResult rd fl re x y s).getV r = s.getV r := by
  constructor
  · cases rd <;> rfl
  · intro r hx hf
    cases rd <;> simp [writeFlagAndResult, getV_setV, hx, hf]

/-- With neither operand VF, every reading writes the flag to VF and the result to V[x], both from the old operands. -/
theorem writeFlagAndResult_plain (rd : Config.AliasReading) (fl re : Byte → Byte → Byte) {x y : Reg} (hx : x ≠ vF) (hy : y ≠ vF)
    (s : State) :
    writeFlagAndResult rd fl re x y s = (s.setV vF (fl (s.getV x) (s.getV y))).setV x (re (s.getV x) (s.getV y)) := by
  cases rd with
  | sequential => simp [writeFlagAndResult, getV_setV_other, hx, hy]
  | latched => rfl
  | flagLast =>
    have hne : ¬ (vF.val = x.val) := fun e => hx (Fin.ext e.symm)
    simp only [writeFlagAndResult, State.setV]
    rw [Vector.set_comm _ _ (fun e => hne e.symm)]

/-- The samples of a scan happen one after the other. -/
theorem deliverMany_succ (k : Nat) (s : State) : deliverMany (k + 1) s = deliverKeys (deliverMany k s) := by
  induction k generalizing s with
  | zero => rfl
  | succ k ih => exact ih (deliverKeys s)

/-- Samples change nothing but the key state and the events still to come. -/
theorem deliverMany_keeps (k : Nat) (s : State) : ∃ key events, deliverMany k s = { s with key := key, keyEvents := events } := by
  induction k generalizing s with
  | zero => exact ⟨s.key, s.keyEvents, rfl⟩
  | succ k ih =>
    obtain ⟨key, events, h⟩ := ih (deliverKeys s)
    obtain ⟨_, _, hd⟩ := deliverKeys_keeps s
    exact ⟨key, events, by rw [deliverMany, h, hd]⟩

/-! ### Drawing -/

/-- A draw reads its coordinates under reading S. -/
theorem spriteCoord_eq (s : State) (flag : Byte) (r : Reg) : spriteCoord s flag r = coordWithFlag s flag r := rfl

@[simp] theorem coordWithFlag_vF (s : State) (flag : Byte) : coordWithFlag s flag vF = flag := if_pos rfl

theorem coordWithFlag_other (s : State) (flag : Byte) {r : Reg} (h : r ≠ vF) : coordWithFlag s flag r = s.getV r := if_neg h

/-- One pixel changes one cell and at most VF. -/
theorem drawCell_frame (cx : Fin 64) (cy : Fin 32) (b : Bool) (s : State) :
    drawCell cx cy b s = { s with V := (drawCell cx cy b s).V, fb := s.fb.put cx cy (s.fb.get cx cy ^^ b) } ∧
      ∀ r, r ≠ vF → (drawCell cx cy b s).getV r = s.getV r := by
  constructor
  · unfold drawCell; simp only; split <;> rfl
  · intro r hr
    unfold drawCell; simp only
    split
    · show (s.setV vF 1).getV r = _
      exact getV_setV_other s 1 hr
    · rfl

theorem fb_get_put_same (fb : Framebuffer) (cx : Fin 64) (cy : Fin 32) (b : Bool) : (fb.put cx cy b).get cx cy = b := by
  simp [Framebuffer.get, Framebuffer.put]

theorem fb_get_put_other (fb : Framebuffer) {cx cx' : Fin 64} {cy cy' : Fin 32} (b : Bool) (h : ¬ (cx' = cx ∧ cy' = cy)) :
    (fb.put cx cy b).get cx' cy' = fb.get cx' cy' := by
  by_cases hx : cx' = cx
  · subst hx
    have hy : ¬ (cy.val = cy'.val) := fun e => h ⟨rfl, Fin.ext e.symm⟩
    simp [Framebuffer.get, Framebuffer.put, hy]
  · have hx' : ¬ (cx.val = cx'.val) := fun e => hx (Fin.ext e.symm)
    simp [Framebuffer.get, Framebuffer.put, hx']

/-- Two framebuffers are equal when every cell reads the same. -/
theorem fb_ext {fb fb' : Framebuffer} (h : ∀ cx cy, fb.get cx cy = fb'.get cx cy) : fb = fb' := by
  ext i hi j hj
  exact h ⟨i, hi⟩ ⟨j, hj⟩

/-- The column loop changes registers only at VF, and no state but V and the framebuffer. -/
theorem drawRow_frame (rd : Config.AliasReading) (s0 : State) (x y : Reg) (row : Nat) (b : Byte) (s : State) :
    drawRow rd s0 x y row b s =
        { s with V := (drawRow rd s0 x y row b s).V, fb := (drawRow rd s0 x y row b s).fb } ∧
      ∀ r, r ≠ vF → (drawRow rd s0 x y row b s).getV r = s.getV r := by
  unfold drawRow
  induction List.range 8 generalizing s with
  | nil => exact ⟨rfl, fun _ _ => rfl⟩
  | cons c cs ih =>
    have hc := drawCell_frame (pixelColumn (drawCoord rd s0 s x) c) (pixelRow (drawCoord rd s0 s y) row) (spritePixel b c) s
    have hi := ih (drawPixel rd s0 x y row b s c)
    simp only [List.foldl_cons]
    constructor
    · rw [hi.1]
      unfold drawPixel
      rw [hc.1]
    · intro r hr
      rw [hi.2 r hr]
      exact hc.2 r hr

/-- The row loop that succeeds changes no state but V, there only VF, and the framebuffer. -/
theorem drawRows_frame {rd : Config.AliasReading} {s0 : State} {x y : Reg} {rows : List Nat} {s t : State}
    (h : drawRows rd s0 x y rows s = .ok t) :
    t = { s with V := t.V, fb := t.fb } ∧ ∀ r, r ≠ vF → t.getV r = s.getV r := by
  induction rows generalizing s with
  | nil => simp only [drawRows, Except.ok.injEq] at h; subst h; exact ⟨rfl, fun _ _ => rfl⟩
  | cons row rows ih =>
    simp only [drawRows] at h
    split at h
    · rename_i b hb
      have hf := drawRow_frame rd s0 x y row b s
      have := ih h
      constructor
      · rw [this.1, hf.1]
      · intro r hr; rw [this.2 r hr, hf.2 r hr]
    · simp at h

/-! ### The loads -/

/-- A load of registers that succeeds changes registers only, and only those of its list. -/
theorem loadRegs_frame {base : Nat} {rs : List Reg} {s t : State} (h : loadRegs base rs s = .ok t) :
    t = { s with V := t.V } ∧ ∀ r, r ∉ rs → t.getV r = s.getV r := by
  induction rs generalizing s with
  | nil => simp only [loadRegs, Except.ok.injEq] at h; subst h; exact ⟨rfl, fun _ _ => rfl⟩
  | cons q rs ih =>
    simp only [loadRegs] at h
    split at h
    · rename_i v hv
      have := ih h
      constructor
      · rw [this.1]; rfl
      · intro r hr
        rw [this.2 r (fun hm => hr (List.mem_cons_of_mem _ hm))]
        exact getV_setV_other s v (fun e => hr (e ▸ List.mem_cons_self))
    · simp at h

/-- V0 to Vx, and nothing else, in the list of `regsUpTo`. -/
theorem mem_regsUpTo (x r : Reg) : r ∈ regsUpTo x ↔ r.val ≤ x.val := by
  revert x r; decide

/-! ### What a fault leaves -/

/-- After any fault: the latch is set, the counter of faults has advanced, and I, the stack, sp, the timers, the keys, and the
model's own fields are as they were (R206). -/
theorem takeFault_frame (s : State) (f : Fault) (i : Option Instr) :
    s.takeFault f i = { s with
      mem := (s.takeFault f i).mem, V := (s.takeFault f i).V, pc := (s.takeFault f i).pc, fb := (s.takeFault f i).fb,
      dirty := (s.takeFault f i).dirty, faulted := true, faultDraws := s.faultDraws + 1 } := by
  unfold State.takeFault
  simp only
  split <;> rfl

/-- A fault keeps the canonical form of memory. -/
theorem wf_takeFault {s : State} (f : Fault) (i : Option Instr) (h : Memory.wf s.mem = true) :
    Memory.wf (s.takeFault f i).mem = true := by
  unfold State.takeFault
  simp only
  split
  · exact h
  · exact h
  · exact wf_unspecifiedBytes _ _ _ h
  · exact wf_unspecifiedBytes _ _ _ h
  · exact h

/-! ### Reset -/

/-- The state after reset is R41's for the machine's FONT and RESET_DIRTY. -/
theorem reset_eq_resetWith : State.reset = State.resetWith Params.font Params.resetDirty := by decide

/-- The state after reset meets the invariant. -/
theorem wf_reset : Memory.wf State.reset.mem = true := rfl

/-- Storing the next instruction keeps the canonical form of memory. -/
theorem wf_withFetchWord {s : State} (nbits w : Nat) (h : Memory.wf s.mem = true) :
    Memory.wf (s.withFetchWord nbits w).mem = true := by
  unfold State.withFetchWord
  simp only
  split
  · rename_i m hm; exact wf_storeBytes h hm
  · exact h

end Sys2Proof.Laws
end

