-- ==== Sys2Proof/Laws/PerInstr.lean ====
section
/-! SUPPORT. Statements per instruction: the encoder keeps to the opcode map of R76. -/

namespace Sys2Proof.Laws

/-- The word of an instruction has the bits that R76 fixes for its row. -/
def EncodeMatchesRow.Statement (i : Instr) : Prop := (opcodeRow i).matches (encode i) = true

/-- A word that agrees with a pattern on the bits of a mask matches it. -/
theorem and_mask_eq {w mask p : Word} (hp : p &&& mask = p)
    (h : ∀ i < 16, mask.getLsbD i = true → w.getLsbD i = p.getLsbD i) : w &&& mask = p := by
  rw [← hp]
  ext i hi
  have := h i hi
  rw [BitVec.getElem_and, BitVec.getElem_and]
  simp only [BitVec.getLsbD_eq_getElem hi] at this
  cases hm : mask[i] <;> simp_all

theorem group_bit (w : Word) (j : Nat) (hj : j < 4) : (fields w).group.getLsbD j = w.getLsbD (12 + j) := by
  simp [fields, hj]

theorem n_bit (w : Word) (j : Nat) (hj : j < 4) : (fields w).n.getLsbD j = w.getLsbD j := by
  simp [fields, hj]

theorem kk_bit (w : Word) (j : Nat) (hj : j < 8) : (fields w).kk.getLsbD j = w.getLsbD j := by
  simp [fields, hj]

/-- The group decides a row of mask 0xF000. -/
theorem matches_group {w p : Word} (hp : p &&& 0xF000 = p) (h : (fields w).group = (fields p).group) : w &&& 0xF000 = p := by
  refine and_mask_eq hp fun i hi hm => ?_
  by_cases h12 : 12 ≤ i
  · have e : i = 12 + (i - 12) := by omega
    rw [e, ← group_bit w _ (by omega), ← group_bit p _ (by omega), h]
  · exfalso
    have : i < 12 := by omega
    interval_cases i <;> simp at hm

/-- The group and n decide a row of mask 0xF00F. -/
theorem matches_group_n {w p : Word} (hp : p &&& 0xF00F = p) (h : (fields w).group = (fields p).group)
    (hn : (fields w).n = (fields p).n) : w &&& 0xF00F = p := by
  refine and_mask_eq hp fun i hi hm => ?_
  by_cases h12 : 12 ≤ i
  · have e : i = 12 + (i - 12) := by omega
    rw [e, ← group_bit w _ (by omega), ← group_bit p _ (by omega), h]
  · by_cases h4 : i < 4
    · rw [← n_bit w i h4, ← n_bit p i h4, hn]
    · exfalso
      have : i < 12 := by omega
      have : 4 ≤ i := by omega
      interval_cases i <;> simp at hm

/-- The group and kk decide a row of mask 0xF0FF. -/
theorem matches_group_kk {w p : Word} (hp : p &&& 0xF0FF = p) (h : (fields w).group = (fields p).group)
    (hk : (fields w).kk = (fields p).kk) : w &&& 0xF0FF = p := by
  refine and_mask_eq hp fun i hi hm => ?_
  by_cases h12 : 12 ≤ i
  · have e : i = 12 + (i - 12) := by omega
    rw [e, ← group_bit w _ (by omega), ← group_bit p _ (by omega), h]
  · by_cases h8 : i < 8
    · rw [← kk_bit w i h8, ← kk_bit p i h8, hk]
    · exfalso
      have : i < 12 := by omega
      have : 8 ≤ i := by omega
      interval_cases i <;> simp at hm

theorem EncodeMatchesRow.cls : EncodeMatchesRow.Statement .cls := rfl

theorem EncodeMatchesRow.ret : EncodeMatchesRow.Statement .ret := rfl

theorem EncodeMatchesRow.jp (nnn : Imm12) : EncodeMatchesRow.Statement (.jp nnn) :=
  beq_iff_eq.mpr (matches_group (p := 0x1000#16) (by decide) ((fields_NNN_group _ _).trans (by decide)))

theorem EncodeMatchesRow.call (nnn : Imm12) : EncodeMatchesRow.Statement (.call nnn) :=
  beq_iff_eq.mpr (matches_group (p := 0x2000#16) (by decide) ((fields_NNN_group _ _).trans (by decide)))

theorem EncodeMatchesRow.ldI (nnn : Imm12) : EncodeMatchesRow.Statement (.ldI nnn) :=
  beq_iff_eq.mpr (matches_group (p := 0xA000#16) (by decide) ((fields_NNN_group _ _).trans (by decide)))

theorem EncodeMatchesRow.jpV0 (nnn : Imm12) : EncodeMatchesRow.Statement (.jpV0 nnn) :=
  beq_iff_eq.mpr (matches_group (p := 0xB000#16) (by decide) ((fields_NNN_group _ _).trans (by decide)))

theorem EncodeMatchesRow.seVxKk (x : Reg) (kk : Byte) : EncodeMatchesRow.Statement (.seVxKk x kk) :=
  beq_iff_eq.mpr (matches_group (p := 0x3000#16) (by decide) ((fields_XKK_group _ _ _).trans (by decide)))

theorem EncodeMatchesRow.sneVxKk (x : Reg) (kk : Byte) : EncodeMatchesRow.Statement (.sneVxKk x kk) :=
  beq_iff_eq.mpr (matches_group (p := 0x4000#16) (by decide) ((fields_XKK_group _ _ _).trans (by decide)))

theorem EncodeMatchesRow.ldVxKk (x : Reg) (kk : Byte) : EncodeMatchesRow.Statement (.ldVxKk x kk) :=
  beq_iff_eq.mpr (matches_group (p := 0x6000#16) (by decide) ((fields_XKK_group _ _ _).trans (by decide)))

theorem EncodeMatchesRow.addVxKk (x : Reg) (kk : Byte) : EncodeMatchesRow.Statement (.addVxKk x kk) :=
  beq_iff_eq.mpr (matches_group (p := 0x7000#16) (by decide) ((fields_XKK_group _ _ _).trans (by decide)))

theorem EncodeMatchesRow.rnd (x : Reg) (kk : Byte) : EncodeMatchesRow.Statement (.rnd x kk) :=
  beq_iff_eq.mpr (matches_group (p := 0xC000#16) (by decide) ((fields_XKK_group _ _ _).trans (by decide)))

theorem EncodeMatchesRow.seVxVy (x y : Reg) : EncodeMatchesRow.Statement (.seVxVy x y) :=
  beq_iff_eq.mpr (matches_group_n (p := 0x5000#16) (by decide) ((fields_XYN_group _ _ _ _).trans (by decide))
    ((fields_XYN_n _ _ _ _).trans (by decide)))

theorem EncodeMatchesRow.ldVxVy (x y : Reg) : EncodeMatchesRow.Statement (.ldVxVy x y) :=
  beq_iff_eq.mpr (matches_group_n (p := 0x8000#16) (by decide) ((fields_XYN_group _ _ _ _).trans (by decide))
    ((fields_XYN_n _ _ _ _).trans (by decide)))

theorem EncodeMatchesRow.orVxVy (x y : Reg) : EncodeMatchesRow.Statement (.orVxVy x y) :=
  beq_iff_eq.mpr (matches_group_n (p := 0x8001#16) (by decide) ((fields_XYN_group _ _ _ _).trans (by decide))
    ((fields_XYN_n _ _ _ _).trans (by decide)))

theorem EncodeMatchesRow.andVxVy (x y : Reg) : EncodeMatchesRow.Statement (.andVxVy x y) :=
  beq_iff_eq.mpr (matches_group_n (p := 0x8002#16) (by decide) ((fields_XYN_group _ _ _ _).trans (by decide))
    ((fields_XYN_n _ _ _ _).trans (by decide)))

theorem EncodeMatchesRow.xorVxVy (x y : Reg) : EncodeMatchesRow.Statement (.xorVxVy x y) :=
  beq_iff_eq.mpr (matches_group_n (p := 0x8003#16) (by decide) ((fields_XYN_group _ _ _ _).trans (by decide))
    ((fields_XYN_n _ _ _ _).trans (by decide)))

theorem EncodeMatchesRow.addVxVy (x y : Reg) : EncodeMatchesRow.Statement (.addVxVy x y) :=
  beq_iff_eq.mpr (matches_group_n (p := 0x8004#16) (by decide) ((fields_XYN_group _ _ _ _).trans (by decide))
    ((fields_XYN_n _ _ _ _).trans (by decide)))

theorem EncodeMatchesRow.subVxVy (x y : Reg) : EncodeMatchesRow.Statement (.subVxVy x y) :=
  beq_iff_eq.mpr (matches_group_n (p := 0x8005#16) (by decide) ((fields_XYN_group _ _ _ _).trans (by decide))
    ((fields_XYN_n _ _ _ _).trans (by decide)))

theorem EncodeMatchesRow.shrVx (x y : Reg) : EncodeMatchesRow.Statement (.shrVx x y) :=
  beq_iff_eq.mpr (matches_group_n (p := 0x8006#16) (by decide) ((fields_XYN_group _ _ _ _).trans (by decide))
    ((fields_XYN_n _ _ _ _).trans (by decide)))

theorem EncodeMatchesRow.subnVxVy (x y : Reg) : EncodeMatchesRow.Statement (.subnVxVy x y) :=
  beq_iff_eq.mpr (matches_group_n (p := 0x8007#16) (by decide) ((fields_XYN_group _ _ _ _).trans (by decide))
    ((fields_XYN_n _ _ _ _).trans (by decide)))

theorem EncodeMatchesRow.shlVx (x y : Reg) : EncodeMatchesRow.Statement (.shlVx x y) :=
  beq_iff_eq.mpr (matches_group_n (p := 0x800E#16) (by decide) ((fields_XYN_group _ _ _ _).trans (by decide))
    ((fields_XYN_n _ _ _ _).trans (by decide)))

theorem EncodeMatchesRow.sneVxVy (x y : Reg) : EncodeMatchesRow.Statement (.sneVxVy x y) :=
  beq_iff_eq.mpr (matches_group_n (p := 0x9000#16) (by decide) ((fields_XYN_group _ _ _ _).trans (by decide))
    ((fields_XYN_n _ _ _ _).trans (by decide)))

theorem EncodeMatchesRow.drw (x y : Reg) (n : Nibble) : EncodeMatchesRow.Statement (.drw x y n) :=
  beq_iff_eq.mpr (matches_group (p := 0xD000#16) (by decide) ((fields_XYN_group _ _ _ _).trans (by decide)))

theorem EncodeMatchesRow.skp (x : Reg) : EncodeMatchesRow.Statement (.skp x) :=
  beq_iff_eq.mpr (matches_group_kk (p := 0xE09E#16) (by decide) ((fields_XKK_group _ _ _).trans (by decide))
    ((fields_XKK_kk _ _ _).trans (by decide)))

theorem EncodeMatchesRow.sknp (x : Reg) : EncodeMatchesRow.Statement (.sknp x) :=
  beq_iff_eq.mpr (matches_group_kk (p := 0xE0A1#16) (by decide) ((fields_XKK_group _ _ _).trans (by decide))
    ((fields_XKK_kk _ _ _).trans (by decide)))

theorem EncodeMatchesRow.ldVxDt (x : Reg) : EncodeMatchesRow.Statement (.ldVxDt x) :=
  beq_iff_eq.mpr (matches_group_kk (p := 0xF007#16) (by decide) ((fields_XKK_group _ _ _).trans (by decide))
    ((fields_XKK_kk _ _ _).trans (by decide)))

theorem EncodeMatchesRow.ldVxK (x : Reg) : EncodeMatchesRow.Statement (.ldVxK x) :=
  beq_iff_eq.mpr (matches_group_kk (p := 0xF00A#16) (by decide) ((fields_XKK_group _ _ _).trans (by decide))
    ((fields_XKK_kk _ _ _).trans (by decide)))

theorem EncodeMatchesRow.ldDtVx (x : Reg) : EncodeMatchesRow.Statement (.ldDtVx x) :=
  beq_iff_eq.mpr (matches_group_kk (p := 0xF015#16) (by decide) ((fields_XKK_group _ _ _).trans (by decide))
    ((fields_XKK_kk _ _ _).trans (by decide)))

theorem EncodeMatchesRow.ldStVx (x : Reg) : EncodeMatchesRow.Statement (.ldStVx x) :=
  beq_iff_eq.mpr (matches_group_kk (p := 0xF018#16) (by decide) ((fields_XKK_group _ _ _).trans (by decide))
    ((fields_XKK_kk _ _ _).trans (by decide)))

theorem EncodeMatchesRow.addI (x : Reg) : EncodeMatchesRow.Statement (.addI x) :=
  beq_iff_eq.mpr (matches_group_kk (p := 0xF01E#16) (by decide) ((fields_XKK_group _ _ _).trans (by decide))
    ((fields_XKK_kk _ _ _).trans (by decide)))

theorem EncodeMatchesRow.ldF (x : Reg) : EncodeMatchesRow.Statement (.ldF x) :=
  beq_iff_eq.mpr (matches_group_kk (p := 0xF029#16) (by decide) ((fields_XKK_group _ _ _).trans (by decide))
    ((fields_XKK_kk _ _ _).trans (by decide)))

theorem EncodeMatchesRow.ldB (x : Reg) : EncodeMatchesRow.Statement (.ldB x) :=
  beq_iff_eq.mpr (matches_group_kk (p := 0xF033#16) (by decide) ((fields_XKK_group _ _ _).trans (by decide))
    ((fields_XKK_kk _ _ _).trans (by decide)))

theorem EncodeMatchesRow.ldIVx (x : Reg) : EncodeMatchesRow.Statement (.ldIVx x) :=
  beq_iff_eq.mpr (matches_group_kk (p := 0xF055#16) (by decide) ((fields_XKK_group _ _ _).trans (by decide))
    ((fields_XKK_kk _ _ _).trans (by decide)))

theorem EncodeMatchesRow.ldVxI (x : Reg) : EncodeMatchesRow.Statement (.ldVxI x) :=
  beq_iff_eq.mpr (matches_group_kk (p := 0xF065#16) (by decide) ((fields_XKK_group _ _ _).trans (by decide))
    ((fields_XKK_kk _ _ _).trans (by decide)))

theorem EncodeMatchesRow.nop (w : Word) : EncodeMatchesRow.Statement (.nop w) :=
  beq_iff_eq.mpr (BitVec.and_zero)

end Sys2Proof.Laws
end

