-- ==== Sys2Proof/Tests/Slice0.lean ====
section
/-! SUPPORT. Tests on fixed values, each from a vector of spec/95 or a word written out from R72 and R76, and one witness for each
statement with hypotheses. -/

open Sys2Proof Sys2Proof.Machine

/-! ## Helpers -/

/-- A state after reset with some registers set. -/
def Tests.regs (l : List (Reg × Byte)) : State := l.foldl (fun s p => s.setV p.1 p.2) State.reset

/-- A state with bytes placed in memory. -/
def Tests.place (s : State) (a : Nat) (bytes : List Byte) : State := { s with mem := Memory.writeList s.mem a bytes }

/-- A state with some keys held down. -/
def Tests.hold (s : State) (ks : List Int) : State := ks.foldl (fun s k => setKeyDown k s) s

/-- One step of the word `w` placed at pc. -/
def Tests.run (s : State) (w : Nat) : Answer := step (s.withFetchWord 16 w)

/-- The answer is a next state of which `p` holds. -/
def Tests.next (a : Answer) (p : State → Bool) : Bool :=
  match a with
  | .next t => p t
  | .fault _ => false
  | .refused _ => false

/-- The answer is the fault `f`. -/
def Tests.faults (a : Answer) (f : Fault) : Bool :=
  match a with
  | .next _ => false
  | .fault g => g == f
  | .refused _ => false

/-- The cells of a list are lit, and as many cells as the list has are lit in the rows it names. -/
def Tests.lit (t : State) (cells : List (Fin 64 × Fin 32)) (rows : List (Fin 32)) : Bool :=
  cells.all (fun c => t.fb.get c.1 c.2) &&
    ((rows.map fun cy => ((List.finRange 64).filter fun cx => t.fb.get cx cy).length).sum == cells.length)

/-! ## Well-formedness -/

theorem test_wf_refuses_nop_of_cls : Instr.wellFormed (.nop 0x00E0) = false := by decide
theorem test_wf_refuses_nop_of_jp : Instr.wellFormed (.nop 0x1234) = false := by decide
theorem test_wf_refuses_nop_of_shl : Instr.wellFormed (.nop 0x800E) = false := by decide
theorem test_wf_accepts_nop : Instr.wellFormed (.nop 0x5121) = true := by decide
theorem test_decode_rejects_one_byte : decodeBytes [0x12] = .error (.truncated 1) := by decide

/-! ## Decoding: a word of every row, written out from R72's formats and R76's patterns -/

theorem test_decode_cls : decode 0b0000000011100000 = .cls := by decide
theorem test_decode_ret : decode 0b0000000011101110 = .ret := by decide
theorem test_decode_jp : decode 0b0001101010111100 = .jp 0xABC := by decide
theorem test_decode_call : decode 0b0010101010111100 = .call 0xABC := by decide
theorem test_decode_seVxKk : decode 0b0011010000101010 = .seVxKk 4 0x2A := by decide
theorem test_decode_sneVxKk : decode 0b0100010000101010 = .sneVxKk 4 0x2A := by decide
theorem test_decode_seVxVy : decode 0b0101000100100000 = .seVxVy 1 2 := by decide
theorem test_decode_ldVxKk : decode 0b0110101000000010 = .ldVxKk 0xA 0x02 := by decide
theorem test_decode_addVxKk : decode 0b0111001100000010 = .addVxKk 3 0x02 := by decide
theorem test_decode_ldVxVy : decode 0b1000000100100000 = .ldVxVy 1 2 := by decide
theorem test_decode_orVxVy : decode 0b1000000100100001 = .orVxVy 1 2 := by decide
theorem test_decode_andVxVy : decode 0b1000000100100010 = .andVxVy 1 2 := by decide
theorem test_decode_xorVxVy : decode 0b1000000100100011 = .xorVxVy 1 2 := by decide
theorem test_decode_addVxVy : decode 0b1000101010110100 = .addVxVy 0xA 0xB := by decide
theorem test_decode_subVxVy : decode 0b1000000100100101 = .subVxVy 1 2 := by decide
theorem test_decode_shrVx : decode 0b1000000100100110 = .shrVx 1 2 := by decide
theorem test_decode_subnVxVy : decode 0b1000000100100111 = .subnVxVy 1 2 := by decide
theorem test_decode_shlVx : decode 0b1000010000001110 = .shlVx 4 0 := by decide
theorem test_decode_sneVxVy : decode 0b1001101010110000 = .sneVxVy 0xA 0xB := by decide
theorem test_decode_ldI : decode 0b1010001011110000 = .ldI 0x2F0 := by decide
theorem test_decode_jpV0 : decode 0b1011001100000000 = .jpV0 0x300 := by decide
theorem test_decode_rnd : decode 0b1100001100001111 = .rnd 3 0x0F := by decide
theorem test_decode_drw : decode 0b1101000100100011 = .drw 1 2 3 := by decide
theorem test_decode_skp : decode 0b1110001010011110 = .skp 2 := by decide
theorem test_decode_sknp : decode 0b1110001010100001 = .sknp 2 := by decide
theorem test_decode_ldVxDt : decode 0b1111010100000111 = .ldVxDt 5 := by decide
theorem test_decode_ldVxK : decode 0b1111001100001010 = .ldVxK 3 := by decide
theorem test_decode_ldDtVx : decode 0b1111010100010101 = .ldDtVx 5 := by decide
theorem test_decode_ldStVx : decode 0b1111000100011000 = .ldStVx 1 := by decide
theorem test_decode_addI : decode 0b1111001000011110 = .addI 2 := by decide
theorem test_decode_ldF : decode 0b1111000100101001 = .ldF 1 := by decide
theorem test_decode_ldB : decode 0b1111001000110011 = .ldB 2 := by decide
theorem test_decode_ldIVx : decode 0b1111001001010101 = .ldIVx 2 := by decide
theorem test_decode_ldVxI : decode 0b1111001001100101 = .ldVxI 2 := by decide
/-- V-S8: neighbours of defined words are no-ops. -/
theorem test_decode_nop :
    decode 0x00E1 = .nop 0x00E1 ∧ decode 0x8008 = .nop 0x8008 ∧ decode 0xE09F = .nop 0xE09F ∧ decode 0xF075 = .nop 0xF075 := by
  decide
/-- V-S1 in the table's numbering. -/
theorem test_decode_table_word : decodeTableWord 16 0x6A02 = some (.ldVxKk 0xA 0x02) := by decide

/-! ## One step: vectors of spec/95 -/

/-- S11: FONT at 0x50 to 0x9F (its first and last byte, and the bytes beside it). -/
theorem test_reset_font : Memory.read State.reset.mem 0x4F = 0 ∧ Memory.read State.reset.mem 0x50 = 0xF0 ∧
    Memory.read State.reset.mem 0x9F = 0x80 ∧ Memory.read State.reset.mem 0xA0 = 0 := by decide

/-- V-S4. -/
theorem test_odd_pc : Tests.next (Tests.run { State.reset with pc := 0x201 } 0x6107) (fun t => t.getV 1 == 7 && t.pc == 0x203) =
    true := by decide
/-- V-S5. -/
theorem test_top_pc : Tests.next (Tests.run { State.reset with pc := 0xFFE } 0x6B01)
    (fun t => t.getV 11 == 1 && t.pc == 0x1000 && Tests.faults (step t) (.fetchOob 0x1000)) = true := by decide
/-- V-S6. -/
theorem test_fetch_oob : step { State.reset with pc := 0xFFF } = .fault (.fetchOob 0xFFF) := rfl
/-- V-S7. -/
theorem test_faulted : step { State.reset with faulted := true } = .refused .coreFaulted := rfl

/-- V-D2. -/
theorem test_cls : Tests.next (Tests.run { State.reset with dirty := false } 0x00E0) (fun t => t.dirty) = true := by decide
/-- V-D1. -/
theorem test_cls_clears : Tests.next (Tests.run { State.reset with fb := State.reset.fb.put 63 31 true } 0x00E0)
    (fun t => !t.fb.get 63 31) = true := by decide
/-- V-F7. -/
theorem test_ret : Tests.next (Tests.run { State.reset with sp := 1, stack := State.reset.stack.set 0 0x345 } 0x00EE)
    (fun t => t.sp == 0 && t.pc == 0x345 && t.stack[0] == 0x345) = true := by decide
/-- V-F8. -/
theorem test_ret_underflow : Tests.run State.reset 0x00EE = .fault (.stackUnderflow 0x200) := rfl
/-- V-F3. -/
theorem test_jp : Tests.next (Tests.run State.reset 0x1FFF) (fun t => t.pc == 0xFFF) = true := by decide
/-- V-F5. -/
theorem test_call : Tests.next (Tests.run { State.reset with pc := 0x400, sp := 15 } 0x2300)
    (fun t => t.stack[15] == 0x402 && t.sp == 16 && t.pc == 0x300) = true := by decide
/-- V-F6. -/
theorem test_call_overflow : Tests.run { State.reset with pc := 0x400, sp := 16 } 0x2300 = .fault (.stackOverflow 0x400) := rfl
/-- V-F10. -/
theorem test_jpV0_no_mask : Tests.next (Tests.run (Tests.regs [(0, 0xFF)]) 0xBFFF) (fun t => t.pc == 0x10FE) = true := by decide
/-- V-F11. -/
theorem test_jpV0_uses_v0 : Tests.next (Tests.run (Tests.regs [(5, 0x20)]) 0xB520) (fun t => t.pc == 0x520) = true := by decide
/-- V-F12. -/
theorem test_seVxKk : Tests.next (Tests.run (Tests.regs [(4, 0x2A)]) 0x342A) (fun t => t.pc == 0x204) = true := by decide
/-- V-F21. -/
theorem test_seVxKk_at_top : Tests.next (Tests.run { State.reset with pc := 0xFFE } 0x3000) (fun t => t.pc == 0x1002) = true := by
  decide
/-- V-F14. -/
theorem test_sneVxKk : Tests.next (Tests.run (Tests.regs [(4, 0x2A)]) 0x442A) (fun t => t.pc == 0x202) = true := by decide
/-- V-F17. -/
theorem test_seVxVy : Tests.next (Tests.run (Tests.regs [(1, 9), (2, 8)]) 0x5120) (fun t => t.pc == 0x202) = true := by decide
/-- V-F19. -/
theorem test_sneVxVy : Tests.next (Tests.run (Tests.regs [(1, 9), (2, 8)]) 0x9120) (fun t => t.pc == 0x204) = true := by decide

/-- V-A1. -/
theorem test_ldVxKk : Tests.next (Tests.run State.reset 0x6F7E) (fun t => t.getV 15 == 0x7E) = true := by decide
/-- V-A2. -/
theorem test_addVxKk_wraps : Tests.next (Tests.run (Tests.regs [(3, 0xFF)]) 0x7302) (fun t => t.getV 3 == 1 && t.getV 15 == 0) =
    true := by decide
/-- V-A5. -/
theorem test_ldVxVy : Tests.next (Tests.run (Tests.regs [(2, 0x5A)]) 0x8120) (fun t => t.getV 1 == 0x5A) = true := by decide
/-- V-A6. -/
theorem test_orVxVy : Tests.next (Tests.run (Tests.regs [(1, 0xF0), (2, 0x3C), (15, 9)]) 0x8121)
    (fun t => t.getV 1 == 0xFC && t.getV 15 == 9) = true := by decide
/-- V-A7. -/
theorem test_andVxVy : Tests.next (Tests.run (Tests.regs [(1, 0xF0), (2, 0x3C), (15, 9)]) 0x8122)
    (fun t => t.getV 1 == 0x30 && t.getV 15 == 9) = true := by decide
/-- V-A8. -/
theorem test_xorVxVy : Tests.next (Tests.run (Tests.regs [(1, 0xF0), (2, 0x3C), (15, 9)]) 0x8123)
    (fun t => t.getV 1 == 0xCC && t.getV 15 == 9) = true := by decide
/-- V-A10. -/
theorem test_addVxVy : Tests.next (Tests.run (Tests.regs [(0, 0xC8), (1, 0x64)]) 0x8014)
    (fun t => t.getV 0 == 0x2C && t.getV 15 == 1) = true := by decide
/-- V-A13, with VF = 0x10 and V1 = 0x20. -/
theorem test_addVxVy_to_vf : Tests.next (Tests.run (Tests.regs [(15, 0x10), (1, 0x20)]) 0x8F14) (fun t => t.getV 15 == 0x30) =
    true := by decide
/-- V-A17. -/
theorem test_subVxVy_equal : Tests.next (Tests.run (Tests.regs [(1, 7), (2, 7)]) 0x8125)
    (fun t => t.getV 1 == 0 && t.getV 15 == 0) = true := by decide
/-- V-A18. -/
theorem test_subVxVy_by_vf : Tests.next (Tests.run (Tests.regs [(1, 5), (15, 3)]) 0x81F5)
    (fun t => t.getV 1 == 4 && t.getV 15 == 1) = true := by decide
/-- V-A22, first word. -/
theorem test_shrVx : Tests.next (Tests.run (Tests.regs [(1, 0x81)]) 0x8126) (fun t => t.getV 1 == 0x40 && t.getV 15 == 1) = true := by
  decide
/-- V-A24. -/
theorem test_shrVx_of_vf : Tests.next (Tests.run (Tests.regs [(15, 3)]) 0x8F06) (fun t => t.getV 15 == 0) = true := by decide
/-- V-A26. -/
theorem test_subnVxVy : Tests.next (Tests.run (Tests.regs [(1, 0x0A), (2, 3)]) 0x8127)
    (fun t => t.getV 1 == 0xF9 && t.getV 15 == 0) = true := by decide
/-- V-A29. -/
theorem test_subnVxVy_to_vf : Tests.next (Tests.run (Tests.regs [(15, 2), (1, 9)]) 0x8F17) (fun t => t.getV 15 == 8) = true := by
  decide
/-- V-A31. -/
theorem test_shlVx : Tests.next (Tests.run (Tests.regs [(4, 0x40)]) 0x840E) (fun t => t.getV 4 == 0x80 && t.getV 15 == 0) = true := by
  decide
/-- V-A32. -/
theorem test_shlVx_of_vf : Tests.next (Tests.run (Tests.regs [(15, 0xC0)]) 0x8F0E) (fun t => t.getV 15 == 2) = true := by decide
/-- V-A35, V-A37: the stored byte is the drawn one AND kk, whatever was drawn. -/
theorem test_rnd : ∃ t, Tests.run State.reset 0xC30F = .next t ∧ t.getV 3 = Config.randomByte 0 &&& 0x0F ∧ t.rndDraws = 1 :=
  ⟨_, rfl, rfl, rfl⟩

/-- V-M1. -/
theorem test_ldI : Tests.next (Tests.run State.reset 0xAFFF) (fun t => t.I == 0x0FFF) = true := by decide
/-- V-M2. -/
theorem test_addI : Tests.next (Tests.run { Tests.regs [(2, 0x20)] with I := 0x0FF0 } 0xF21E)
    (fun t => t.I == 0x1010 && t.getV 15 == 0) = true := by decide
/-- V-M3. -/
theorem test_addI_wraps : Tests.next (Tests.run { Tests.regs [(2, 1)] with I := 0xFFFF } 0xF21E)
    (fun t => t.I == 0 && t.getV 15 == 0) = true := by decide
/-- V-M5. -/
theorem test_ldF : Tests.next (Tests.run (Tests.regs [(1, 0x0F)]) 0xF129) (fun t => t.I == 0x09B) = true := by decide
/-- V-M7. -/
theorem test_ldF_no_mask : Tests.next (Tests.run (Tests.regs [(1, 0xFF)]) 0xF129) (fun t => t.I == 0x54B) = true := by decide
/-- S6, at V-M12's address. -/
theorem test_ldB : Tests.next (Tests.run { Tests.regs [(2, 234)] with I := 0xFFD } 0xF233)
    (fun t => t.mem == [(0x200, 0xF2), (0x201, 0x33), (0xFFD, 2), (0xFFE, 3), (0xFFF, 4)]) = true := by decide
/-- V-M13. -/
theorem test_ldB_oob : Tests.run { Tests.regs [(2, 255)] with I := 0xFFE } 0xF233 = .fault (.writeOob 0x1000) := rfl
/-- V-M14. -/
theorem test_ldIVx : Tests.next (Tests.run { Tests.regs [(0, 0x11), (1, 0x22), (2, 0x33), (3, 0x44)] with I := 0x400 } 0xF255)
    (fun t => t.mem == [(0x200, 0xF2), (0x201, 0x55), (0x400, 0x11), (0x401, 0x22), (0x402, 0x33)] && t.I == 0x400) = true := by
  decide
/-- V-M22. -/
theorem test_ldIVx_over_itself : Tests.next (Tests.run { Tests.regs [(0, 0x12)] with I := 0x200 } 0xF155)
    (fun t => t.mem == [(0x200, 0x12)] && t.pc == 0x202) = true := by decide
/-- V-M18. -/
theorem test_ldVxI : Tests.next (Tests.run (Tests.place { State.reset with I := 0x400 } 0x400 [9, 8, 7, 6]) 0xF265)
    (fun t => t.getV 0 == 9 && t.getV 1 == 8 && t.getV 2 == 7 && t.getV 3 == 0 && t.I == 0x400) = true := by decide
/-- V-M21. -/
theorem test_ldVxI_oob : Tests.run { State.reset with I := 0xFFFF } 0xF065 = .fault (.readOob 0xFFFF) := rfl

/-- V-D3. -/
theorem test_drw_wraps : Tests.next (Tests.run (Tests.place { Tests.regs [(0, 62), (1, 31)] with I := 0x300 } 0x300 [0xF0, 0x81]) 0xD012)
    (fun t => Tests.lit t [(62, 31), (63, 31), (0, 31), (1, 31), (62, 0), (5, 0)] [0, 1, 30, 31] && t.getV 15 == 0 && t.dirty) =
    true := by decide
/-- V-D13. -/
theorem test_drw_at_vf : Tests.next (Tests.run (Tests.place { Tests.regs [(15, 5)] with I := 0x300 } 0x300 [0x80]) 0xDF11)
    (fun t => Tests.lit t [(0, 0)] [0, 1] && t.getV 15 == 0) = true := by decide

/-- V-K3. -/
theorem test_skp : Tests.next (Tests.run (Tests.hold (Tests.regs [(2, 0x1A)]) [0xA]) 0xE29E) (fun t => t.pc == 0x204) = true := by
  decide
/-- V-K5. -/
theorem test_sknp : Tests.next (Tests.run (Tests.hold (Tests.regs [(2, 7)]) [7]) 0xE2A1) (fun t => t.pc == 0x202) = true := by decide
/-- V-K7. -/
theorem test_ldVxK_lowest : Tests.next (Tests.run (Tests.hold State.reset [9, 5]) 0xF30A) (fun t => t.pc == 0x202 && t.getV 3 == 5) =
    true := by decide
/-- R153 with an event between two samples: key 9 is held, key 2 goes down after its own sample has been made, so 9 is found. -/
theorem test_ldVxK_event_between_samples :
    Tests.next (Tests.run { Tests.hold State.reset [9] with keyEvents := [[], [], [], [⟨2, true⟩]] } 0xF30A)
      (fun t => t.getV 3 == 9 && t.key[2] && t.keyEvents == []) = true := by decide
/-- V-K10. -/
theorem test_ldVxDt : Tests.next (Tests.run { State.reset with DT := 0x3C } 0xF507) (fun t => t.getV 5 == 0x3C && t.DT == 0x3C) =
    true := by decide
/-- V-K11. -/
theorem test_ldDtVx : Tests.next (Tests.run (Tests.regs [(5, 0x3C)]) 0xF515) (fun t => t.DT == 0x3C) = true := by decide
/-- V-K12, the step. -/
theorem test_ldStVx : Tests.next (Tests.run (Tests.regs [(1, 2)]) 0xF118) (fun t => t.ST == 2 && isSoundActive t) = true := by decide
/-- V-N2. -/
theorem test_nop : Tests.next (Tests.run { State.reset with sp := 3 } 0x0ABC) (fun t => t.pc == 0x202 && t.sp == 3) = true := by
  decide

/-! ## Host operations: vectors of spec/95 -/

/-- V-H5. -/
theorem test_keys_out_of_range : setKeyDown 16 State.reset = State.reset ∧ setKeyDown (-1) State.reset = State.reset ∧
    setKeyUp 99 State.reset = State.reset := by decide
/-- V-H3. -/
theorem test_loadProgram : Tests.next (loadProgram [0x12, 0x00] State.reset) (fun t => t.mem == [(0x200, 0x12)]) = true := by decide
/-- S13, V-H7. -/
theorem test_tick : (tickTimers { State.reset with DT := 1 }).DT = 0 ∧ (tickTimers { State.reset with DT := 1 }).ST = 0 := by decide
/-- V-H12. -/
theorem test_reset_releases_keys : (resetCore (some (Tests.hold State.reset [3]))).key[3] = false := by decide

/-! ## Witnesses: a state and operands that meet the hypotheses of each statement, at the boundary of each clause -/

theorem witness_ResetLeavesTheTabledState : Params.font.length = 80 := by decide

theorem witness_StepExecutesTheDecodedInstruction :
    let s := Tests.place { State.reset with pc := 0xFFE } 0xFFE [0x6B, 0x01]
    s.faulted = false ∧ s.pc.toNat ≤ 0xFFE ∧
      decode (wordOfBytes (Memory.read s.mem s.pc.toNat) (Memory.read s.mem (s.pc.toNat + 1))) = .ldVxKk 11 1 := by decide

theorem witness_FetchAboveTheTopFaults :
    let s := { State.reset with pc := 0xFFF }
    s.faulted = false ∧ 0xFFE < s.pc.toNat := by decide

theorem witness_FaultStopsTheCoreUntilReset_refused : { State.reset with faulted := true }.faulted = true := rfl

theorem witness_FaultStopsTheCoreUntilReset_fault :
    ∃ t, stepHost (State.reset.withFetchWord 16 0x00EE) = .ok (.fault (.stackUnderflow 0x200)) t := ⟨_, rfl⟩

theorem witness_DecodeInvertsEncode : Instr.wellFormed (.nop 0x8008) = true ∧ Instr.wellFormed (.drw 15 15 15) = true := by decide

theorem witness_DecodeFollowsTheOpcodeMap : (⟨0xF00F, 0x8004⟩ : OpcodeRow) ∈ opcodeMap := by decide

theorem witness_RetPopsThePc : 0 < { State.reset with sp := 1 }.sp.val ∧ 0 < { State.reset with sp := 16 }.sp.val ∧
    State.reset.sp.val = 0 := by decide

theorem witness_CallPushesAndJumps : { State.reset with sp := 15 }.sp.val < 16 ∧ { State.reset with sp := 16 }.sp.val = 16 := by
  decide

theorem witness_NestedCallsUnwind : State.reset.sp.val + (List.replicate 16 (0x300 : Imm12)).length ≤ 16 ∧
    List.replicate 16 (0x300 : Imm12) ≠ [] := by decide

theorem witness_SeventeenthCallFaults : 16 < State.reset.sp.val + (List.replicate 17 (0x300 : Imm12)).length ∧
    16 < { State.reset with sp := 16 }.sp.val + [(0x300 : Imm12)].length := by decide

theorem witness_AddWithCarryOut : (14 : Reg) ≠ vF ∧ (13 : Reg) ≠ 14 ∧ (13 : Reg) ≠ vF := by decide

theorem witness_SubtractFlagIsStrictlyGreater : (0 : Reg) ≠ vF ∧ (14 : Reg) ≠ vF := by decide

theorem witness_ShiftsGiveTheBitShiftedOut : (14 : Reg) ≠ vF := by decide

/-- With both operands 0x80: the flag of the addition is 1, that of every comparison 0, that of the left shift 1. -/
theorem witness_AliasedResults :
    let s := Tests.regs [(1, 0x80), (15, 0x80)]
    (1 : Reg) ≠ vF ∧ s.getV 1 = 0x80 ∧ s.getV vF = 0x80 ∧
      (1 : Byte) = (if (0x80 : Byte).toNat + (0x80 : Byte).toNat > 255 then 1 else 0) ∧
      (0 : Byte) = (if (0x80 : Byte).toNat > (0x80 : Byte).toNat then 1 else 0) ∧
      (1 : Byte).toNat = (0x80 : Byte).toNat / 128 := by decide

theorem witness_ReadingsAgreeWithoutVfOperands : (14 : Reg) ≠ vF ∧ (0 : Reg) ≠ vF := by decide

theorem witness_BcdStoresThreeDigits :
    let s := { State.reset with I := 0xFFD }
    Memory.wf s.mem = true ∧ effectiveAddress s 2 ≤ 4095 := by decide

theorem witness_StoreRegistersWritesEach :
    let s := { State.reset with I := 0xFF0 }
    Memory.wf s.mem = true ∧ effectiveAddress s (15 : Reg).val ≤ 4095 := by decide

theorem witness_LoadRegistersReadsEach :
    effectiveAddress { State.reset with I := 0xFF0 } (15 : Reg).val ≤ 4095 ∧
      effectiveAddress { State.reset with I := 0xFFF } (0 : Reg).val ≤ 4095 := by decide

theorem witness_TransfersFaultAtTheFirstBadAddress :
    4095 < effectiveAddress { State.reset with I := 0xFFE } 2 ∧
      4095 < effectiveAddress { State.reset with I := 0xFF1 } (15 : Reg).val ∧
      4095 < effectiveAddress { State.reset with I := 0x1000 } (0 : Reg).val := by decide

theorem witness_StoreThenLoadRestoresRegisters :
    let s := { State.reset with I := 0xFF0 }
    Memory.wf s.mem = true ∧ effectiveAddress s (15 : Reg).val ≤ 4095 := by decide

theorem witness_StoreIsSeenByTheNextFetch :
    let s := { State.reset with I := 0xFFE, pc := 0xFFE }
    Memory.wf s.mem = true ∧ s.I = s.pc ∧ 1 ≤ (1 : Reg).val ∧ effectiveAddress s (1 : Reg).val ≤ 4095 := by decide

/-- All 15 rows in range, the last at 4095. -/
theorem witness_DrawIsXorWithTheWrappedSprite_rows :
    let s := { State.reset with I := 0xFF1 }
    (0 : Reg) ≠ vF ∧ (14 : Reg) ≠ vF ∧ ∀ row, row < (15 : Nibble).toNat → effectiveAddress s row ≤ 4095 := by decide

/-- A sprite of one pixel at (63, 31), on a lit cell there. -/
def Tests.hitting : State :=
  Tests.place { Tests.regs [(0, 63), (1, 31)] with I := 0xFFF, fb := State.reset.fb.put 63 31 true } 0xFFF [0x80]

theorem witness_DrawIsXorWithTheWrappedSprite_hit :
    SpriteHits Tests.hitting (Tests.hitting.getV 0) (Tests.hitting.getV 1) 1 := ⟨63, 31, by decide, by decide⟩

theorem witness_DrawIsXorWithTheWrappedSprite_miss :
    ¬ SpriteHits State.reset (State.reset.getV 0) (State.reset.getV 1) 15 := by
  rintro ⟨cx, cy, h, -⟩
  revert h
  revert cx cy
  decide

theorem witness_DrawingTwiceRestores :
    (0 : Reg) ≠ vF ∧ (1 : Reg) ≠ vF ∧ (∀ row, row < (1 : Nibble).toNat → effectiveAddress Tests.hitting row ≤ 4095) := by decide

theorem witness_DrawFaultsAtTheFirstBadRow :
    (∃ row, row < (15 : Nibble).toNat ∧ 4095 < effectiveAddress { State.reset with I := 0xFF2 } row) ∧
      ∃ row, row < (1 : Nibble).toNat ∧ 4095 < effectiveAddress { State.reset with I := 0xFFFF } row :=
  ⟨⟨14, by decide⟩, ⟨0, by decide⟩⟩

/-- The footprint of a faulting DFF1: the same VF is both coordinates, so (8, 1) is in it, (8, 0) and (0, 1) are not (R142, R206). -/
theorem test_footprint_of_vf_twice :
    spriteCovers State.reset 15 15 1 7 0 = true ∧ spriteCovers State.reset 15 15 1 8 1 = true ∧
      spriteCovers State.reset 15 15 1 8 0 = false ∧ spriteCovers State.reset 15 15 1 0 1 = false := by decide

/-- No row at all: in range with I above the top (V-D8). -/
theorem witness_DrawCompletesInEveryForm :
    let s := { State.reset with I := 0x1000 }
    (∀ row, row < (0 : Nibble).toNat → effectiveAddress s row ≤ 4095) ∧
      spriteCovers s 15 15 0 63 31 = false ∧ spriteCovers { State.reset with I := 0xFFF } 15 14 1 9 0 = false := by decide

theorem witness_VfCoordinateIsZeroBeforeACollision_miss :
    let s := Tests.regs [(15, 5)]
    (0 : Byte) = (if (15 : Reg) = vF then 0 else s.getV 15) ∧ (0 : Byte) = (if (1 : Reg) = vF then 0 else s.getV 1) ∧
      (∀ row, row < (15 : Nibble).toNat → effectiveAddress s row ≤ 4095) ∧ ¬ SpriteHits s 0 0 15 := by
  refine ⟨by decide, by decide, by decide, ?_⟩
  rintro ⟨cx, cy, h, -⟩
  revert h
  revert cx cy
  decide

/-- VF is both coordinates, the cell (7, 7) is lit, and the sprite's first lit row is row 7: its last pixel, number 63, is the first to
hit. -/
theorem witness_VfCoordinateIsZeroBeforeACollision_hit :
    let s := Tests.place { Tests.regs [(15, 5)] with I := 0x300, fb := State.reset.fb.put 7 7 true } 0x307 [0xFF, 0xFF]
    (∀ row, row < (15 : Nibble).toNat → effectiveAddress s row ≤ 4095) ∧ 63 < 8 * (15 : Nibble).toNat ∧
      (pixelLit s 63 = true ∧ s.fb.get (pixelCell s 15 15 0 63).1 (pixelCell s 15 15 0 63).2 = true) ∧
      ∀ p, p < 63 → ¬ (pixelLit s p = true ∧ s.fb.get (pixelCell s 15 15 0 p).1 (pixelCell s 15 15 0 p).2 = true) := by decide

theorem witness_KeySkipsSampleOneKey :
    (10 : Reg).val = ((Tests.regs [(2, 0x1A)]).getV 2).toNat % 16 ∧ (Tests.regs [(2, 0x1A)]).keyEvents = [] := by decide

theorem witness_KeyWaitTakesTheLowestPressedKey :
    let s := Tests.hold State.reset [15]
    s.keyEvents = [] ∧ s.key[(15 : Reg)] = true ∧ (∀ j : Reg, j < 15 → s.key[j] = false) ∧
      (∀ k : Reg, State.reset.key[k] = false) := by decide

/-- Key 2 goes down after its own sample, key 9 is down at its; and with no event and no key down every sample is false. -/
theorem witness_KeyWaitUnderKeyEvents_samples :
    let s := { Tests.hold State.reset [9] with keyEvents := [[], [], [], [⟨2, true⟩]] }
    sampleInScan s 9 = true ∧ (∀ j : Reg, j < 9 → sampleInScan s j = false) ∧ (deliverMany 10 s).key[(2 : Reg)] = true ∧
      ∀ k : Reg, sampleInScan State.reset k = false := by decide

theorem witness_KeyWaitUnderKeyEvents_delivery :
    State.reset.keyEvents = [] ∧ { State.reset with keyEvents := [[], []] }.keyEvents = [] :: [[]] ∧
      { State.reset with keyEvents := [[⟨2, true⟩, ⟨2, false⟩], []] }.keyEvents = (⟨2, true⟩ :: [⟨2, false⟩]) :: [[]] := by decide

theorem witness_KeyWaitStallsTheStep :
    let s := State.reset.withFetchWord 16 0xFF0A
    s.faulted = false ∧ s.pc.toNat ≤ 0xFFE ∧ s.keyEvents = [] ∧ (∀ k : Reg, s.key[k] = false) ∧
      decode (wordOfBytes (Memory.read s.mem s.pc.toNat) (Memory.read s.mem (s.pc.toNat + 1))) = .ldVxK 15 := by decide

theorem witness_NoOpWordsOnlyAdvance :
    let s := { State.reset with pc := 0xFFE }
    s.faulted = false ∧ s.pc.toNat ≤ 0xFFE ∧
      isNopWord (wordOfBytes (Memory.read s.mem s.pc.toNat) (Memory.read s.mem (s.pc.toNat + 1))) = true := by decide

theorem witness_LoadProgramCopiesTheBytes : Memory.wf State.reset.mem = true ∧ (List.replicate 3584 (0xFF : Byte)).length ≤ 3584 ∧
    3584 < (List.replicate 3585 (0xFF : Byte)).length :=
  ⟨by decide, by rw [List.length_replicate], by rw [List.length_replicate]; decide⟩

theorem witness_KeyOperationsSetOneKey : ((0 : Int) ≤ 0 ∧ (0 : Int) ≤ 15) ∧ ((0 : Int) ≤ 15 ∧ (15 : Int) ≤ 15) ∧
    ((-1 : Int) < 0 ∨ (15 : Int) < -1) ∧ ((16 : Int) < 0 ∨ (15 : Int) < 16) := by decide

theorem witness_ResetFromAnyState : HostOp.step ≠ .reset := by decide

theorem witness_ExecCompletesOrRaisesItsOwnFault :
    ExecutesNormally (.ldIVx 15) { State.reset with I := 0xFF0 } ∧ ¬ ExecutesNormally (.ldIVx 15) { State.reset with I := 0xFF1 } := by
  constructor <;> simp only [ExecutesNormally] <;> decide

/-- Faulting steps of the kinds whose footprint is more than pc: a draw, a load, a store (V-D9, V-M20, V-M13). -/
theorem witness_FaultLeavesAllButTheFootprint :
    (∃ t, stepHost ({ State.reset with I := 0x1000 }.withFetchWord 16 0xD011) = .ok (.fault (.readOob 0x1000)) t) ∧
      (∃ t, stepHost ({ State.reset with I := 0xFF1 }.withFetchWord 16 0xFF65) = .ok (.fault (.readOob 0x1000)) t) ∧
      ∃ t, stepHost ({ State.reset with I := 0xFFE }.withFetchWord 16 0xF233) = .ok (.fault (.writeOob 0x1000)) t :=
  ⟨⟨_, rfl⟩, ⟨_, rfl⟩, ⟨_, rfl⟩⟩

theorem witness_OnlyListedRegistersChange :
    (∃ t, exec (.ldVxI 1) State.reset = .next t) ∧ writesReg (.ldVxI 1) 2 = false ∧ writesReg (.ldVxI 1) 1 = true :=
  ⟨⟨_, rfl⟩, by decide, by decide⟩

theorem witness_OnlyListedInstructionsChangeControl :
    (∃ t, exec (.ldVxI 1) State.reset = .next t) ∧ writesI (.ldVxI 1) = false ∧ writesPc (.ldVxI 1) = false ∧
      Instr.ldVxI 1 ≠ .ret ∧ ∀ nnn, Instr.ldVxI 1 ≠ .call nnn :=
  ⟨⟨_, rfl⟩, by decide, by decide, by decide, by decide⟩

theorem witness_OnlyListedInstructionsChangeDevices :
    (∃ t, exec (.drw 0 1 0) State.reset = .next t) ∧ (∃ t, exec (.ldVxDt 1) State.reset = .next t) ∧
      samplesKeys (.drw 0 1 0) = false ∧ State.reset.keyEvents = [] ∧ Instr.ldVxDt 1 ≠ .cls ∧
      (∀ x y n, Instr.ldVxDt 1 ≠ .drw x y n) ∧ (∀ x, Instr.ldVxDt 1 ≠ .ldDtVx x) ∧ ∀ x, Instr.ldVxDt 1 ≠ .ldStVx x :=
  ⟨⟨_, rfl⟩, ⟨_, rfl⟩, by decide, rfl, by decide, by decide, by decide, by decide⟩

theorem witness_OnlyStoresChangeMemory :
    let s := { State.reset with I := 0xFFD }
    (∃ t, exec (.ldB 1) s = .next t) ∧ 0xFFC < effectiveAddress s 0 ∧ effectiveAddress s (storeLength (.ldB 1)) ≤ 0x1000 ∧
      effectiveAddress s (storeLength .cls) ≤ 0xFFD :=
  ⟨⟨_, rfl⟩, by decide, by decide, by decide⟩

theorem witness_DirtyAndSoundAreInvisibleToPrograms :
    (∃ t, exec (.ldStVx 1) State.reset = .next t) ∧ exec .ret State.reset = .fault (.stackUnderflow 0x1FE) :=
  ⟨⟨_, rfl⟩, rfl⟩

/-- The invariant at the highest pc a step can leave, and a step from it. -/
theorem witness_StepKeepsTheInvariant :
    let s := { Tests.regs [(0, 0xFF)] with pc := 0xFFE }
    (s.withFetchWord 16 0xBFFF).Inv ∧ (∃ t, step (s.withFetchWord 16 0xBFFF) = .next t) ∧ { s with pc := 0x10FE }.Inv :=
  ⟨by decide, ⟨_, rfl⟩, by decide⟩

theorem witness_EveryHostEventKeepsTheInvariant :
    State.reset.Inv ∧ ∃ r t, hostApply .step (some (State.reset.withFetchWord 16 0x00EE)) = .ok r t := ⟨by decide, ⟨_, _, rfl⟩⟩
end

section
/-! PROOFS. The decoder keeps to the opcode map of R76: the bits that a row fixes are the fields by which R74 selects. -/

namespace Sys2Proof.Proofs

open Sys2Proof.Laws

/-! ### From a row to the fields: what a mask compares -/

/-- A mask that covers a field compares it. -/
theorem field_eq_of_and_eq {start len : Nat} {w mask p : Word} (hm : mask.extractLsb' start len = BitVec.allOnes len)
    (h : w &&& mask = p) : w.extractLsb' start len = p.extractLsb' start len := by
  rw [← h, BitVec.extractLsb'_and, hm, BitVec.and_allOnes]

/-! ### From the fields to the row: what the decoder selects on (R74) -/

/-- The groups of one instruction each. -/
def singleGroups : List Nibble := [0x1, 0x2, 0x3, 0x4, 0x6, 0x7, 0xA, 0xB, 0xC, 0xD]

/-- The other groups, in which R74 selects further: on the full word, on `n` or on `kk`. -/
theorem group_cases : ∀ g : Nibble,
    g ∈ singleGroups ∨ g = 0x0#4 ∨ g = 0x5#4 ∨ g = 0x8#4 ∨ g = 0x9#4 ∨ g = 0xE#4 ∨ g = 0xF#4 := by decide

theorem decode_of_group0 {w : Word} (hg : (fields w).group = 0x0#4) : decode w = decodeGroup0 w := by
  simp [decode, hg]

theorem decode_of_group5 {w : Word} (hg : (fields w).group = 0x5#4) :
    decode w = if (fields w).n = 0x0#4 then .seVxVy (fields w).x (fields w).y else .nop w := by
  simp [decode, hg]

theorem decode_of_group8 {w : Word} (hg : (fields w).group = 0x8#4) : decode w = decodeGroup8 w (fields w) := by
  simp [decode, hg]

theorem decode_of_group9 {w : Word} (hg : (fields w).group = 0x9#4) :
    decode w = if (fields w).n = 0x0#4 then .sneVxVy (fields w).x (fields w).y else .nop w := by
  simp [decode, hg]

theorem decode_of_groupE {w : Word} (hg : (fields w).group = 0xE#4) : decode w = decodeGroupE w (fields w) := by
  simp [decode, hg]

theorem decode_of_groupF {w : Word} (hg : (fields w).group = 0xF#4) : decode w = decodeGroupF w (fields w) := by
  simp [decode, hg]

/-- In a group of one instruction, the row compares the group and nothing else. -/
theorem opcodeRow_decode_of_single {w : Word} (hg : (fields w).group ∈ singleGroups) :
    opcodeRow (decode w) = ⟨0xF000, (fields w).group ++ 0#12⟩ := by
  simp only [singleGroups, List.mem_cons, List.not_mem_nil, or_false] at hg
  rcases hg with hg | hg | hg | hg | hg | hg | hg | hg | hg | hg <;> simp [decode, opcodeRow, hg]

/-- In the groups 0x5, 0x8 and 0x9, the group and `n` decide the row. -/
theorem opcodeRow_decode_congr_n {w p : Word} (hg : (fields w).group = (fields p).group) (hn : (fields w).n = (fields p).n)
    (hp : (fields p).group ∈ [0x5#4, 0x8#4, 0x9#4]) : opcodeRow (decode w) = opcodeRow (decode p) := by
  simp only [List.mem_cons, List.not_mem_nil, or_false] at hp
  rcases hp with h5 | h8 | h9
  · simp only [decode_of_group5 (hg.trans h5), decode_of_group5 h5, hn, apply_ite opcodeRow]
    rfl
  · simp only [decode_of_group8 (hg.trans h8), decode_of_group8 h8, decodeGroup8, hn, apply_ite opcodeRow]
    rfl
  · simp only [decode_of_group9 (hg.trans h9), decode_of_group9 h9, hn, apply_ite opcodeRow]
    rfl

/-- In the groups 0xE and 0xF, the group and `kk` decide the row. -/
theorem opcodeRow_decode_congr_kk {w p : Word} (hg : (fields w).group = (fields p).group)
    (hk : (fields w).kk = (fields p).kk) (hp : (fields p).group ∈ [0xE#4, 0xF#4]) :
    opcodeRow (decode w) = opcodeRow (decode p) := by
  simp only [List.mem_cons, List.not_mem_nil, or_false] at hp
  rcases hp with hE | hF
  · simp only [decode_of_groupE (hg.trans hE), decode_of_groupE hE, decodeGroupE, hk, apply_ite opcodeRow]
    rfl
  · simp only [decode_of_groupF (hg.trans hF), decode_of_groupF hF, decodeGroupF, hk, apply_ite opcodeRow]
    rfl

/-- The row's mask covers what R74 selects on in the group of its match. -/
def maskFitsGroup (r : OpcodeRow) : Prop :=
  r.mask = 0xFFFF ∨
  (r.mask = 0xF000 ∧ (fields r.pattern).group ∈ singleGroups) ∨
  (r.mask = 0xF00F ∧ (fields r.pattern).group ∈ [0x5#4, 0x8#4, 0x9#4]) ∨
  (r.mask = 0xF0FF ∧ (fields r.pattern).group ∈ [0xE#4, 0xF#4])

theorem opcodeMap_maskFitsGroup : ∀ r ∈ opcodeMap, maskFitsGroup r := by
  unfold maskFitsGroup; decide

/-- The match of a row, read as a word, decodes to the row's instruction. -/
theorem opcodeRow_decode_pattern : ∀ r ∈ opcodeMap, opcodeRow (decode r.pattern) = r := by decide

/-- A word that matches a row decodes to the row's instruction: it agrees with the row's match on all that the decoder selects on. -/
theorem opcodeRow_decode_of_matches {w : Word} {r : OpcodeRow} (hr : r ∈ opcodeMap) (h : r.matches w = true) :
    opcodeRow (decode w) = r := by
  have hand : w &&& r.mask = r.pattern := beq_iff_eq.mp h
  refine Eq.trans ?_ (opcodeRow_decode_pattern r hr)
  rcases opcodeMap_maskFitsGroup r hr with hm | ⟨hm, hp⟩ | ⟨hm, hp⟩ | ⟨hm, hp⟩ <;> rw [hm] at hand
  · have hw : w = r.pattern := BitVec.and_allOnes.symm.trans hand
    rw [hw]
  · have hg : (fields w).group = (fields r.pattern).group := field_eq_of_and_eq (by decide) hand
    rw [opcodeRow_decode_of_single (hg ▸ hp), opcodeRow_decode_of_single hp, hg]
  · exact opcodeRow_decode_congr_n (field_eq_of_and_eq (by decide) hand) (field_eq_of_and_eq (by decide) hand) hp
  · exact opcodeRow_decode_congr_kk (field_eq_of_and_eq (by decide) hand) (field_eq_of_and_eq (by decide) hand) hp

/-! ### The decoded instruction's row matches the word -/

theorem opcodeRow_decode_matches_of_single {w : Word} (hg : (fields w).group ∈ singleGroups) :
    (opcodeRow (decode w)).matches w = true := by
  rw [opcodeRow_decode_of_single hg, OpcodeRow.matches, beq_iff_eq]
  have hrow : ∀ g : Nibble, (g ++ 0#12) &&& 0xF000 = g ++ 0#12 ∧ (fields (g ++ 0#12)).group = g := by decide
  obtain ⟨hp, hgroup⟩ := hrow (fields w).group
  exact matches_group hp hgroup.symm

/-- A branch of the decoder yields a matching row when its instruction's row matches under the branch's condition, and so do the
branches after it. -/
theorem opcodeRow_ite_matches {c : Prop} [Decidable c] {i j : Instr} {w : Word} (hi : c → (opcodeRow i).matches w = true)
    (hj : (opcodeRow j).matches w = true) : (opcodeRow (if c then i else j)).matches w = true := by
  split
  · exact hi ‹c›
  · exact hj

theorem row_n_matches {w p : Word} (hp : p &&& 0xF00F = p) (hg : (fields w).group = (fields p).group)
    (hn : (fields w).n = (fields p).n) : OpcodeRow.matches ⟨0xF00F, p⟩ w = true :=
  beq_iff_eq.mpr (matches_group_n hp hg hn)

theorem row_kk_matches {w p : Word} (hp : p &&& 0xF0FF = p) (hg : (fields w).group = (fields p).group)
    (hk : (fields w).kk = (fields p).kk) : OpcodeRow.matches ⟨0xF0FF, p⟩ w = true :=
  beq_iff_eq.mpr (matches_group_kk hp hg hk)

theorem opcodeRow_decodeGroup0_matches (w : Word) : (opcodeRow (decodeGroup0 w)).matches w = true := by
  unfold decodeGroup0
  iterate 2 refine opcodeRow_ite_matches (fun hw => hw ▸ rfl) ?_
  exact EncodeMatchesRow.nop w

theorem opcodeRow_decodeGroup8_matches {w : Word} (hg : (fields w).group = 0x8#4) :
    (opcodeRow (decodeGroup8 w (fields w))).matches w = true := by
  unfold decodeGroup8
  iterate 9 refine opcodeRow_ite_matches (fun hn => row_n_matches (by decide) hg hn) ?_
  exact EncodeMatchesRow.nop w

theorem opcodeRow_decodeGroupE_matches {w : Word} (hg : (fields w).group = 0xE#4) :
    (opcodeRow (decodeGroupE w (fields w))).matches w = true := by
  unfold decodeGroupE
  iterate 2 refine opcodeRow_ite_matches (fun hk => row_kk_matches (by decide) hg hk) ?_
  exact EncodeMatchesRow.nop w

theorem opcodeRow_decodeGroupF_matches {w : Word} (hg : (fields w).group = 0xF#4) :
    (opcodeRow (decodeGroupF w (fields w))).matches w = true := by
  unfold decodeGroupF
  iterate 9 refine opcodeRow_ite_matches (fun hk => row_kk_matches (by decide) hg hk) ?_
  exact EncodeMatchesRow.nop w

/-- The row of the instruction that a word decodes to matches the word; the default row of the no-op class matches every word. -/
theorem opcodeRow_decode_matches (w : Word) : (opcodeRow (decode w)).matches w = true := by
  rcases group_cases (fields w).group with hg | hg | hg | hg | hg | hg | hg
  · exact opcodeRow_decode_matches_of_single hg
  · exact decode_of_group0 hg ▸ opcodeRow_decodeGroup0_matches w
  · rw [decode_of_group5 hg]
    exact opcodeRow_ite_matches (fun hn => row_n_matches (by decide) hg hn) (EncodeMatchesRow.nop w)
  · exact decode_of_group8 hg ▸ opcodeRow_decodeGroup8_matches hg
  · rw [decode_of_group9 hg]
    exact opcodeRow_ite_matches (fun hn => row_n_matches (by decide) hg hn) (EncodeMatchesRow.nop w)
  · exact decode_of_groupE hg ▸ opcodeRow_decodeGroupE_matches hg
  · exact decode_of_groupF hg ▸ opcodeRow_decodeGroupF_matches hg

/-- Settles O10: a matching word agrees with the row's match on all that the decoder selects on, and each branch of the decoder
has found in the word the bits that its row fixes. -/
theorem decodeFollowsTheOpcodeMap : Obligations.DecodeFollowsTheOpcodeMap := by
  intro w r hr
  constructor
  · exact opcodeRow_decode_of_matches hr
  · rintro rfl
    exact opcodeRow_decode_matches w

end Sys2Proof.Proofs
end

section
/-! PROOFS. The step cycle: what a step is once its fetch has succeeded. -/

namespace Sys2Proof.Proofs

open Sys2Proof.Machine Sys2Proof.Laws

/-- On a core that is not faulted, nothing but the decoder and the advance of pc stands between a successful fetch and `exec`
(R90, R92 to R94). -/
theorem step_of_fetch_ok {s : State} {op : Word} (hf : s.faulted = false) (h : fetch s = .ok op) :
    step s = exec (decode op) s.advance := by
  simp [step, hf, h]

/-- Settles O3: with pc ≤ 0xFFE the fetch yields the big-endian word at pc, and the step executes what it decodes to. -/
theorem stepExecutesTheDecodedInstruction : Obligations.StepExecutesTheDecodedInstruction := by
  rintro s i hf hpc rfl
  exact step_of_fetch_ok hf (fetch_in hpc)

end Sys2Proof.Proofs
end

section
/-! PROOFS. Jumps and register skips (41_flow.md): each changes pc and nothing else. -/

namespace Sys2Proof.Proofs

open Sys2Proof.Machine Sys2Proof.Laws

/-! ### Jump targets as natural numbers -/

@[simp] theorem toNat_zext12 (nnn : Imm12) : (zext12 nnn).toNat = nnn.toNat :=
  BitVec.toNat_setWidth_of_le (by decide)

@[simp] theorem toNat_zext8 (v : Byte) : (zext8 v).toNat = v.toNat :=
  BitVec.toNat_setWidth_of_le (by decide)

/-- The sum of a 12-bit and an 8-bit number is below 2^16, so the 16-bit addition of R103 loses nothing. -/
theorem toNat_jumpOffsetTarget (s : State) (nnn : Imm12) :
    (jumpOffsetTarget s nnn).toNat = nnn.toNat + (s.getV 0).toNat := by
  have hnnn : nnn.toNat < 2 ^ 12 := nnn.isLt
  have hv : (s.getV 0).toNat < 2 ^ 8 := (s.getV 0).isLt
  have hsum : (zext12 nnn).toNat + (zext8 (s.getV 0)).toNat < 2 ^ 16 := by
    rw [toNat_zext12, toNat_zext8]
    omega
  rw [jumpOffsetTarget, BitVec.toNat_add_of_lt hsum, toNat_zext12, toNat_zext8]

/-! ### What the instructions are -/

theorem exec_jp (nnn : Imm12) (s : State) : exec (.jp nnn) s = .next { s with pc := zext12 nnn } := rfl

theorem exec_jpV0 (nnn : Imm12) (s : State) : exec (.jpV0 nnn) s = .next { s with pc := jumpOffsetTarget s nnn } := rfl

theorem exec_seVxKk (x : Reg) (kk : Byte) (s : State) :
    exec (.seVxKk x kk) s = .next (s.skipIf (s.getV x == kk)) := rfl

theorem exec_sneVxKk (x : Reg) (kk : Byte) (s : State) :
    exec (.sneVxKk x kk) s = .next (s.skipIf (s.getV x != kk)) := rfl

theorem exec_seVxVy (x y : Reg) (s : State) :
    exec (.seVxVy x y) s = .next (s.skipIf (s.getV x == s.getV y)) := rfl

theorem exec_sneVxVy (x y : Reg) (s : State) :
    exec (.sneVxVy x y) s = .next (s.skipIf (s.getV x != s.getV y)) := rfl

/-- A skip on a Boolean that decides `p` is one record update of pc. -/
theorem skipIf_eq_of_iff {c : Bool} {p : Prop} [Decidable p] (s : State) (h : c = true ↔ p) :
    s.skipIf c = { s with pc := if p then s.pc + 2 else s.pc } := by
  by_cases hp : p
  · rw [h.mpr hp, if_pos hp]
    rfl
  · rw [Bool.eq_false_iff.mpr (mt h.mp hp), if_neg hp]
    rfl

/-! ### The obligations -/

/-- Settles O12: the target of JP is nnn zero-extended, whatever pc was. -/
theorem jpSetsThePc : Obligations.JpSetsThePc := fun nnn s =>
  ⟨_, exec_jp nnn s, toNat_zext12 nnn, rfl⟩

/-- Settles O14: the target of Bnnn is the sum of nnn and V[0], which fits pc without reduction. -/
theorem jpV0AddsOnlyV0 : Obligations.JpV0AddsOnlyV0 := fun nnn s =>
  ⟨_, exec_jpV0 nnn s, toNat_jumpOffsetTarget s nnn, rfl⟩

/-- Settles O15: each skip tests a Boolean that decides its condition. -/
theorem skipsAddTwoOnTheirCondition : Obligations.SkipsAddTwoOnTheirCondition := by
  intro x y kk s
  rw [exec_seVxKk, exec_sneVxKk, exec_seVxVy, exec_sneVxVy]
  refine ⟨?_, ?_, ?_, ?_⟩
  · exact congrArg _ (skipIf_eq_of_iff s beq_iff_eq)
  · exact congrArg _ (skipIf_eq_of_iff s bne_iff_ne)
  · exact congrArg _ (skipIf_eq_of_iff s beq_iff_eq)
  · exact congrArg _ (skipIf_eq_of_iff s bne_iff_ne)

end Sys2Proof.Proofs
end

section
/-! PROOFS. Load, add immediate, copy and the bitwise rows (42_alu.md): each is one write of V[x] and cannot fault. -/

namespace Sys2Proof.Proofs

open Sys2Proof.Machine Sys2Proof.Laws

/-! ### What the instructions are -/

theorem exec_ldVxKk (x : Reg) (kk : Byte) (s : State) : exec (.ldVxKk x kk) s = .next (s.setV x kk) := rfl

theorem exec_addVxKk (x : Reg) (kk : Byte) (s : State) :
    exec (.addVxKk x kk) s = .next (s.setV x (s.getV x + kk)) := rfl

theorem exec_ldVxVy (x y : Reg) (s : State) : exec (.ldVxVy x y) s = .next (s.setV x (s.getV y)) := rfl

theorem exec_orVxVy (x y : Reg) (s : State) :
    exec (.orVxVy x y) s = .next (s.setV x (s.getV x ||| s.getV y)) := rfl

theorem exec_andVxVy (x y : Reg) (s : State) :
    exec (.andVxVy x y) s = .next (s.setV x (s.getV x &&& s.getV y)) := rfl

theorem exec_xorVxVy (x y : Reg) (s : State) :
    exec (.xorVxVy x y) s = .next (s.setV x (s.getV x ^^^ s.getV y)) := rfl

/-- Byte addition is the natural sum reduced mod 256, the form in which R112 and R117 give it. -/
theorem byte_add_eq_ofNat_mod (a b : Byte) : a + b = BitVec.ofNat 8 ((a.toNat + b.toNat) % 256) :=
  BitVec.eq_of_toNat_eq (by simp)

/-- An instruction that is one register write meets the frame of R114 to R116: only V changes, in V only V[x], whose bits are
those of the value written. -/
theorem exec_setV_bits {i : Instr} {s : State} {x : Reg} {v : Byte} {bit : Nat → Bool}
    (hexec : exec i s = .next (s.setV x v)) (hbit : ∀ b, v.getLsbD b = bit b) :
    ∃ t, exec i s = .next t ∧ t = { s with V := t.V } ∧ (∀ r, r ≠ x → t.getV r = s.getV r) ∧
      ∀ b, (t.getV x).getLsbD b = bit b := by
  refine ⟨s.setV x v, hexec, rfl, fun r hr => getV_setV_other s v hr, fun b => ?_⟩
  rw [getV_setV_same]
  exact hbit b

/-! ### The obligations -/

/-- Settles O18: the three rows are register writes as they stand; the sum of 7xkk is taken mod 256 by the width of a byte. -/
theorem loadAddImmediateAndCopy : Obligations.LoadAddImmediateAndCopy := by
  intro x y kk s
  rw [← byte_add_eq_ofNat_mod]
  exact ⟨exec_ldVxKk x kk s, exec_addVxKk x kk s, exec_ldVxVy x y s⟩

/-- Settles O19: each bitwise row is one register write, and a bit of the value written is the operation on the operands' bits. -/
theorem logicIsBitwiseWithoutFlag : Obligations.LogicIsBitwiseWithoutFlag := fun x y s =>
  ⟨exec_setV_bits (exec_orVxVy x y s) fun _ => BitVec.getLsbD_or,
    exec_setV_bits (exec_andVxVy x y s) fun _ => BitVec.getLsbD_and,
    exec_setV_bits (exec_xorVxVy x y s) fun _ => BitVec.getLsbD_xor⟩

end Sys2Proof.Proofs
end

section
/-! PROOFS. The index register (43_index_memory.md): Annn and Fx1E write I and nothing else. -/

namespace Sys2Proof.Proofs

open Sys2Proof.Machine

/-! ### What the instructions are -/

theorem exec_ldI (nnn : Imm12) (s : State) : exec (.ldI nnn) s = .next { s with I := zext12 nnn } := rfl

theorem exec_addI (x : Reg) (s : State) : exec (.addI x) s = .next { s with I := s.I + zext8 (s.getV x) } := rfl

/-- Adding a zero-extended byte to a word is the natural sum reduced mod 65536, not mod 4096 (R132). -/
theorem toNat_add_zext8 (w : Word) (v : Byte) : (w + zext8 v).toNat = (w.toNat + v.toNat) % 65536 := by
  rw [BitVec.toNat_add, toNat_zext8]

/-! ### The obligation -/

/-- Settles O26: each row is one update of I, to nnn zero-extended or to the sum in the width of I, which wraps at 65536. -/
theorem indexLoadAndAdd : Obligations.IndexLoadAndAdd := fun nnn x s =>
  ⟨⟨_, exec_ldI nnn s, rfl, toNat_zext12 nnn⟩, ⟨_, exec_addI x s, rfl, toNat_add_zext8 s.I (s.getV x)⟩⟩

end Sys2Proof.Proofs
end

section
/-! PROOFS. The display (44_display.md): CLS writes the framebuffer and dirty and nothing else. -/

namespace Sys2Proof.Proofs

open Sys2Proof.Machine

/-! ### The blank framebuffer, and what the instruction is -/

@[simp] theorem fb_get_blank (cx : Fin 64) (cy : Fin 32) : Framebuffer.blank.get cx cy = false := by
  simp [Framebuffer.get, Framebuffer.blank]

theorem exec_cls (s : State) : exec .cls s = .next { s with fb := Framebuffer.blank, dirty := true } := rfl

/-! ### The obligation -/

/-- Settles O34: the next state is `s` with the blank framebuffer and dirty set, whatever the framebuffer of `s` was. -/
theorem clsClearsEveryCell : Obligations.ClsClearsEveryCell := fun s =>
  ⟨_, exec_cls s, rfl, fb_get_blank⟩

end Sys2Proof.Proofs
end

section
/-! PROOFS. The timers (45_keys_timers.md): Fx07 reads DT, Fx15 and Fx18 write DT and ST, each the whole byte and nothing else. -/

namespace Sys2Proof.Proofs

open Sys2Proof.Machine

/-! ### What the instructions and the sound level are -/

theorem exec_ldVxDt (x : Reg) (s : State) : exec (.ldVxDt x) s = .next (s.setV x s.DT) := rfl

theorem exec_ldDtVx (x : Reg) (s : State) : exec (.ldDtVx x) s = .next { s with DT := s.getV x } := rfl

theorem exec_ldStVx (x : Reg) (s : State) : exec (.ldStVx x) s = .next { s with ST := s.getV x } := rfl

/-- The sound level depends on ST alone (R178). -/
theorem isSoundActive_iff (s : State) : isSoundActive s = true ↔ 0 < s.ST.toNat := decide_eq_true_iff

/-! ### The obligation -/

/-- Settles O45: each row is one copy of a byte, and after Fx18 the ST that the sound level reads is V[x]. -/
theorem timerAccessesCopyTheByte : Obligations.TimerAccessesCopyTheByte := fun x s =>
  ⟨exec_ldVxDt x s, exec_ldDtVx x s, _, exec_ldStVx x s, rfl, isSoundActive_iff { s with ST := s.getV x }⟩

end Sys2Proof.Proofs
end

section
/-! PROOFS. The no-op class (46_reserved_nop.md): a word of R77's list decodes to a no-op, whose execute phase changes nothing. -/

namespace Sys2Proof.Proofs

open Sys2Proof.Machine Sys2Proof.Laws

/-! ### R77's list, group by group, on the fields that the decoder compares -/

/-- R77 lists no word of the groups of one instruction each. -/
theorem isNopWord_of_single {w : Word} (hg : (fields w).group ∈ singleGroups) : isNopWord w = false := by
  simp only [singleGroups, List.mem_cons, List.not_mem_nil, or_false] at hg
  rcases hg with hg | hg | hg | hg | hg | hg | hg | hg | hg | hg <;> simp [isNopWord, ← fields_group_toNat, hg]

theorem isNopWord_iff_of_group0 {w : Word} (hg : (fields w).group = 0x0#4) :
    isNopWord w = true ↔ w ≠ 0x00E0#16 ∧ w ≠ 0x00EE#16 := by
  simp [isNopWord, ← fields_group_toNat, hg, BitVec.toNat_eq]

/-- In the groups 0x5 and 0x9, the no-op words are those whose `n` is not 0. -/
theorem isNopWord_iff_n_ne_zero {w : Word} (hg : (fields w).group = 0x5#4 ∨ (fields w).group = 0x9#4) :
    isNopWord w = true ↔ (fields w).n ≠ 0x0#4 := by
  rcases hg with hg | hg <;> simp [isNopWord, ← fields_group_toNat, ← fields_n_toNat, hg, BitVec.toNat_eq]

theorem isNopWord_iff_of_group8 {w : Word} (hg : (fields w).group = 0x8#4) :
    isNopWord w = true ↔ (fields w).n ∈ [0x8#4, 0x9#4, 0xA#4, 0xB#4, 0xC#4, 0xD#4, 0xF#4] := by
  simp [isNopWord, ← fields_group_toNat, ← fields_n_toNat, hg, BitVec.toNat_eq, or_assoc]

theorem isNopWord_iff_of_groupE {w : Word} (hg : (fields w).group = 0xE#4) :
    isNopWord w = true ↔ (fields w).kk ∉ [0x9E#8, 0xA1#8] := by
  simp [isNopWord, ← fields_group_toNat, ← fields_kk_toNat, hg, BitVec.toNat_eq]

theorem isNopWord_iff_of_groupF {w : Word} (hg : (fields w).group = 0xF#4) :
    isNopWord w = true ↔
      (fields w).kk ∉ [0x07#8, 0x0A#8, 0x15#8, 0x18#8, 0x1E#8, 0x29#8, 0x33#8, 0x55#8, 0x65#8] := by
  simp [isNopWord, ← fields_group_toNat, ← fields_kk_toNat, hg, BitVec.toNat_eq, and_assoc]

/-! ### The decoder on a word of the list -/

theorem decodeGroup8_of_isNopWord {w : Word} (hg : (fields w).group = 0x8#4) (h : isNopWord w = true) :
    decodeGroup8 w (fields w) = .nop w := by
  have hn := (isNopWord_iff_of_group8 hg).mp h
  simp only [List.mem_cons, List.not_mem_nil, or_false] at hn
  rcases hn with hn | hn | hn | hn | hn | hn | hn <;> simp [decodeGroup8, hn]

theorem decodeGroupE_of_isNopWord {w : Word} (hg : (fields w).group = 0xE#4) (h : isNopWord w = true) :
    decodeGroupE w (fields w) = .nop w := by
  have hk := (isNopWord_iff_of_groupE hg).mp h
  simp only [List.mem_cons, List.not_mem_nil, or_false, not_or] at hk
  simp [decodeGroupE, hk]

theorem decodeGroupF_of_isNopWord {w : Word} (hg : (fields w).group = 0xF#4) (h : isNopWord w = true) :
    decodeGroupF w (fields w) = .nop w := by
  have hk := (isNopWord_iff_of_groupF hg).mp h
  simp only [List.mem_cons, List.not_mem_nil, or_false, not_or] at hk
  simp [decodeGroupF, hk]

/-- A word of R77's list passes every comparison of its group and falls through to the no-op (R77). -/
theorem decode_of_isNopWord {w : Word} (h : isNopWord w = true) : decode w = .nop w := by
  rcases group_cases (fields w).group with hg | hg | hg | hg | hg | hg | hg
  · exact absurd h (Bool.eq_false_iff.mp (isNopWord_of_single hg))
  · obtain ⟨hcls, hret⟩ := (isNopWord_iff_of_group0 hg).mp h
    rw [decode_of_group0 hg, decodeGroup0, if_neg hcls, if_neg hret]
  · rw [decode_of_group5 hg, if_neg ((isNopWord_iff_n_ne_zero (.inl hg)).mp h)]
  · rw [decode_of_group8 hg, decodeGroup8_of_isNopWord hg h]
  · rw [decode_of_group9 hg, if_neg ((isNopWord_iff_n_ne_zero (.inr hg)).mp h)]
  · rw [decode_of_groupE hg, decodeGroupE_of_isNopWord hg h]
  · rw [decode_of_groupF hg, decodeGroupF_of_isNopWord hg h]

/-! ### What the instruction is -/

theorem exec_nop (w : Word) (s : State) : exec (.nop w) s = .next s := rfl

/-! ### The obligation -/

/-- Settles O46: the word fetched at pc decodes to a no-op, so the step is the advance of pc and an execute phase that changes
nothing. -/
theorem noOpWordsOnlyAdvance : Obligations.NoOpWordsOnlyAdvance := by
  refine ⟨exec_nop, fun s hf hpc hnop => ?_⟩
  rw [step_of_fetch_ok hf (fetch_in hpc), decode_of_isNopWord hnop, exec_nop]
  rfl

end Sys2Proof.Proofs
end

section
/-! PROOFS. The host interface (47_host_operations.md): what any number of timer ticks leaves, and what a key operation sets. -/

namespace Sys2Proof.Proofs

open Sys2Proof.Machine

/-! ### Ticks: one timer, then both of them, any number of times -/

/-- One tick is truncated subtraction of 1: it never wraps, and a timer at 0 stays there (R177). -/
theorem toNat_tickTimer (t : Byte) : (tickTimer t).toNat = t.toNat - 1 := by
  unfold tickTimer
  split <;> bv_omega

theorem toNat_tickMany_DT (k : Nat) (s : State) : (tickMany k s).DT.toNat = s.DT.toNat - k := by
  induction k generalizing s with
  | zero => rfl
  | succ k ih => rw [tickMany, ih, Laws.tickTimers_DT, toNat_tickTimer, Nat.sub_sub, Nat.add_comm]

theorem toNat_tickMany_ST (k : Nat) (s : State) : (tickMany k s).ST.toNat = s.ST.toNat - k := by
  induction k generalizing s with
  | zero => rfl
  | succ k ih => rw [tickMany, ih, Laws.tickTimers_ST, toNat_tickTimer, Nat.sub_sub, Nat.add_comm]

/-- The frame of any number of ticks: the two timers are all that they write. -/
theorem tickMany_frame (k : Nat) (s : State) :
    tickMany k s = { s with DT := (tickMany k s).DT, ST := (tickMany k s).ST } := by
  induction k generalizing s with
  | zero => rfl
  | succ k ih => exact ih (tickTimers s)

/-! ### Keys: one entry of the array, or none -/

theorem setKey_of_in_range (key : Vector Bool 16) {k : Int} (down : Bool) (hk : 0 ≤ k ∧ k ≤ 15) (j : Reg) :
    (setKey key k down)[j] = if (j.val : Int) = k then down else key[j] := by
  have hj : k.toNat = j.val ↔ (j.val : Int) = k := by omega
  simp only [setKey, dif_pos hk, Fin.getElem_fin, Vector.getElem_set, hj]

theorem setKey_of_out_of_range (key : Vector Bool 16) {k : Int} (down : Bool) (hk : k < 0 ∨ 15 < k) :
    setKey key k down = key :=
  dif_neg (by omega)

/-! ### The obligations -/

/-- Settles O47: each timer by induction on the number of ticks, from the one tick that is truncated subtraction of 1. -/
theorem ticksCountDownAndStopAtZero : Obligations.TicksCountDownAndStopAtZero := fun k s =>
  ⟨toNat_tickMany_DT k s, toNat_tickMany_ST k s, tickMany_frame k s⟩

/-- Settles O49: both operations are `setKey` on the array, which sets the one entry in range and is the identity out of it. -/
theorem keyOperationsSetOneKey : Obligations.KeyOperationsSetOneKey := by
  refine fun k s => ⟨fun hk => ⟨rfl, rfl, fun j => ?_⟩, fun hk => ?_⟩
  · exact ⟨setKey_of_in_range s.key true hk j, setKey_of_in_range s.key false hk j⟩
  · rw [setKeyDown, setKeyUp, setKey_of_out_of_range s.key true hk, setKey_of_out_of_range s.key false hk]
    exact ⟨rfl, rfl⟩

end Sys2Proof.Proofs
end

section
/-! PROOFS. The encoder and the decoder invert each other (30_encoding.md): the fields of a word are all of its bits, and each
branch of the decoder keeps those that its instruction's format writes back. -/

namespace Sys2Proof.Proofs

open Sys2Proof.Laws

/-! ### A word from its fields, in each format of R72 -/

theorem encodeNNN_fields {w : Word} {g : Nibble} (hg : (fields w).group = g) : encodeNNN g (fields w).nnn = w := by
  apply BitVec.eq_of_toNat_eq
  rw [encodeNNN_toNat, ← hg, fields_group_toNat, fields_nnn_toNat]
  omega

theorem encodeXKK_fields {w : Word} {g : Nibble} {kk : Byte} (hg : (fields w).group = g) (hk : (fields w).kk = kk) :
    encodeXKK g (fields w).x kk = w := by
  apply BitVec.eq_of_toNat_eq
  rw [encodeXKK_toNat, ← hg, ← hk, fields_group_toNat, fields_x_val, fields_kk_toNat]
  omega

theorem encodeXYN_fields {w : Word} {g n : Nibble} (hg : (fields w).group = g) (hn : (fields w).n = n) :
    encodeXYN g (fields w).x (fields w).y n = w := by
  apply BitVec.eq_of_toNat_eq
  rw [encodeXYN_toNat, ← hg, ← hn, fields_group_toNat, fields_x_val, fields_y_val, fields_n_toNat]
  omega

/-! ### From an instruction to its word and back -/

/-- The fields of an encoded word are the operands and the selectors of its format; the no-op words are those of R77's list. -/
theorem decode_encode {i : Instr} (h : i.wellFormed = true) : decode (encode i) = i := by
  cases i with
  | cls | ret => rfl
  | jp | call | ldI | jpV0 => simp [encode, decode]
  | seVxKk | sneVxKk | ldVxKk | addVxKk | rnd => simp [encode, decode]
  | seVxVy | sneVxVy | drw => simp [encode, decode]
  | ldVxVy | orVxVy | andVxVy | xorVxVy | addVxVy | subVxVy | shrVx | subnVxVy | shlVx =>
    simp [encode, decode, decodeGroup8]
  | skp | sknp => simp [encode, decode, decodeGroupE]
  | ldVxDt | ldVxK | ldDtVx | ldStVx | addI | ldF | ldB | ldIVx | ldVxI => simp [encode, decode, decodeGroupF]
  | nop w => exact decode_of_isNopWord h

/-! ### From a word to its instruction and back -/

/-- The instruction is well formed and its word is `w`. -/
def EncodesTo (w : Word) (i : Instr) : Prop := encode i = w ∧ i.wellFormed = true

theorem encodesTo_nop {w : Word} (h : isNopWord w = true) : EncodesTo w (.nop w) := ⟨rfl, h⟩

theorem encodesTo_decode_of_single {w : Word} (hg : (fields w).group ∈ singleGroups) : EncodesTo w (decode w) := by
  simp only [singleGroups, List.mem_cons, List.not_mem_nil, or_false] at hg
  rcases hg with hg | hg | hg | hg | hg | hg | hg | hg | hg | hg <;>
    simp [EncodesTo, decode, hg, encode, Instr.wellFormed, encodeNNN_fields, encodeXKK_fields, encodeXYN_fields]

theorem encodesTo_decodeGroup0 {w : Word} (hg : (fields w).group = 0x0#4) : EncodesTo w (decodeGroup0 w) :=
  iteInduction (fun hcls => ⟨hcls.symm, rfl⟩) fun hcls =>
    iteInduction (fun hret => ⟨hret.symm, rfl⟩) fun hret => encodesTo_nop ((isNopWord_iff_of_group0 hg).mpr ⟨hcls, hret⟩)

/-- A nibble that none of group 0x8's rows selects is one of R77's list. -/
theorem nop_nibble_of_group8 : ∀ n : Nibble, n ∉ [0x0#4, 0x1#4, 0x2#4, 0x3#4, 0x4#4, 0x5#4, 0x6#4, 0x7#4, 0xE#4] →
    n ∈ [0x8#4, 0x9#4, 0xA#4, 0xB#4, 0xC#4, 0xD#4, 0xF#4] := by decide

theorem encodesTo_decodeGroup8 {w : Word} (hg : (fields w).group = 0x8#4) : EncodesTo w (decodeGroup8 w (fields w)) := by
  unfold decodeGroup8
  iterate 9 refine iteInduction (fun hn => ⟨encodeXYN_fields hg hn, rfl⟩) fun _ => ?_
  exact encodesTo_nop ((isNopWord_iff_of_group8 hg).mpr (nop_nibble_of_group8 _ (by simp [*])))

theorem encodesTo_decodeGroupE {w : Word} (hg : (fields w).group = 0xE#4) : EncodesTo w (decodeGroupE w (fields w)) := by
  unfold decodeGroupE
  iterate 2 refine iteInduction (fun hk => ⟨encodeXKK_fields hg hk, rfl⟩) fun _ => ?_
  exact encodesTo_nop ((isNopWord_iff_of_groupE hg).mpr (by simp [*]))

theorem encodesTo_decodeGroupF {w : Word} (hg : (fields w).group = 0xF#4) : EncodesTo w (decodeGroupF w (fields w)) := by
  unfold decodeGroupF
  iterate 9 refine iteInduction (fun hk => ⟨encodeXKK_fields hg hk, rfl⟩) fun _ => ?_
  exact encodesTo_nop ((isNopWord_iff_of_groupF hg).mpr (by simp [*]))

/-- Every branch of the decoder keeps all the bits of the word, and falls through to the no-op on R77's words only. -/
theorem encodesTo_decode (w : Word) : EncodesTo w (decode w) := by
  rcases group_cases (fields w).group with hg | hg | hg | hg | hg | hg | hg
  · exact encodesTo_decode_of_single hg
  · exact decode_of_group0 hg ▸ encodesTo_decodeGroup0 hg
  · rw [decode_of_group5 hg]
    exact iteInduction (fun hn => ⟨encodeXYN_fields hg hn, rfl⟩) fun hn =>
      encodesTo_nop ((isNopWord_iff_n_ne_zero (.inl hg)).mpr hn)
  · exact decode_of_group8 hg ▸ encodesTo_decodeGroup8 hg
  · rw [decode_of_group9 hg]
    exact iteInduction (fun hn => ⟨encodeXYN_fields hg hn, rfl⟩) fun hn =>
      encodesTo_nop ((isNopWord_iff_n_ne_zero (.inr hg)).mpr hn)
  · exact decode_of_groupE hg ▸ encodesTo_decodeGroupE hg
  · exact decode_of_groupF hg ▸ encodesTo_decodeGroupF hg

/-! ### The obligations -/

/-- Settles O7: by cases on the instruction, from the fields of its format. -/
theorem decodeInvertsEncode : Obligations.DecodeInvertsEncode := fun _ h => decode_encode h

/-- Settles O8: by cases on the group, each branch putting the fields it decoded back into the word. -/
theorem encodeInvertsDecode : Obligations.EncodeInvertsDecode := encodesTo_decode

/-- Settles O9: a no-op carries the word it was decoded from and is well formed, which for a no-op is to be of R77's list. -/
theorem noOpWordsAreExactlyTheListedOnes : Obligations.NoOpWordsAreExactlyTheListedOnes := by
  intro w v
  constructor
  · intro h
    obtain ⟨hword, hlisted⟩ : EncodesTo w (.nop v) := h ▸ encodesTo_decode w
    obtain rfl : v = w := hword
    exact ⟨hlisted, rfl⟩
  · rintro ⟨h, rfl⟩
    exact decode_of_isNopWord h

/-- Settles O6: eight fixed words, each run through the decoder. -/
theorem sampleWordsDecode : Obligations.SampleWordsDecode := by
  unfold Obligations.SampleWordsDecode
  decide

end Sys2Proof.Proofs
end

section
/-! PROOFS. Reset, the step cycle's faults, and the host operations that load, read and reset (40_step_cycle.md,
47_host_operations.md). -/

namespace Sys2Proof.Proofs

open Sys2Proof.Machine Sys2Proof.Laws

/-! ### Memory after reset -/

/-- Nothing but FONT is set in the memory after reset (R41). -/
theorem background_outside_font {a : Nat} (h : a < 0x050 ∨ 0x0A0 ≤ a) : Memory.background a = 0 := by
  have hlen : Params.font.length = 80 := by decide
  unfold Memory.background
  split
  next hbase =>
    have hbase' : 0x050 ≤ a := hbase
    have hend : Params.font.length ≤ a - Params.fontBase := by
      rw [hlen, Params.fontBase]; omega
    exact List.getD_eq_default _ _ hend
  next => rfl

theorem resetWith_mem {font : List Byte} (d : Bool) (h : font.length = 80) :
    (State.resetWith font d).mem = Memory.writeList [] 0x050 font := by
  show Memory.writeList [] 0x050 (font.take 80) = _
  rw [List.take_of_length_le h.le]

theorem read_resetWith_font {font : List Byte} (d : Bool) (h : font.length = 80) (j : Nat) (hj : j < font.length) :
    Memory.read (State.resetWith font d).mem (0x050 + j) = font[j] := by
  rw [resetWith_mem d h]
  refine read_writeList_inside rfl ?_ j hj
  rw [h]; decide

theorem read_resetWith_outside {font : List Byte} (d : Bool) (h : font.length = 80) {a : Nat} (ha : a < 0x050 ∨ 0x0A0 ≤ a) :
    Memory.read (State.resetWith font d).mem a = 0 := by
  rw [resetWith_mem d h, read_writeList_outside _ (by omega)]
  exact background_outside_font ha

@[simp] theorem getV_reset (r : Reg) : State.reset.getV r = 0 := by
  simp [State.getV, State.reset]

@[simp] theorem fb_get_reset (cx : Fin 64) (cy : Fin 32) : State.reset.fb.get cx cy = false := fb_get_blank cx cy

/-- Settles O1: FONT is written over memory that reads 0 outside the font area; every other field is the literal of
`State.reset`. -/
theorem resetLeavesTheTabledState : Obligations.ResetLeavesTheTabledState := by
  refine ⟨reset_eq_resetWith, fun font d hlen => ⟨fun j hj => read_resetWith_font d hlen j hj,
    fun a ha => read_resetWith_outside d hlen (by omega), getV_reset, rfl, rfl, rfl, ?_, rfl, rfl, fb_get_reset, rfl, ?_, rfl⟩⟩
  · intro j
    simp [State.resetWith, State.reset]
  · intro k
    simp [State.resetWith, State.reset]

/-- No return address is in use at sp = 0. -/
theorem returnsInRange_reset : State.reset.ReturnsInRange := fun _ h => absurd h (Nat.not_lt_zero _)

/-- Settles O2: nothing is listed in memory, no return address is in use, and pc is 0x200. -/
theorem resetMeetsTheInvariant : Obligations.ResetMeetsTheInvariant :=
  ⟨wf_reset, returnsInRange_reset, fun _ => by decide⟩

/-! ### The faults of the step cycle -/

theorem step_of_faulted {s : State} (h : s.faulted = true) : step s = .refused .coreFaulted := if_pos h

theorem step_of_fetch_error {s : State} {f : Fault} (hf : s.faulted = false) (h : fetch s = .error f) :
    step s = .fault f := by
  simp [step, hf, h]

/-- Settles O4: the fetch is the first thing a step of a core that is not faulted does. -/
theorem fetchAboveTheTopFaults : Obligations.FetchAboveTheTopFaults := fun _ hf hpc =>
  step_of_fetch_error hf (fetch_out hpc)

@[simp] theorem takeFault_faulted (s : State) (f : Fault) (i : Option Instr) : (s.takeFault f i).faulted = true :=
  congrArg State.faulted (takeFault_frame s f i)

/-- What a step that the host sees fault has left (R206). -/
theorem stepHost_fault {s t : State} {f : Fault} (h : stepHost s = .ok (.fault f) t) :
    step s = .fault f ∧ t = s.takeFault f (fetchedInstr s) := by
  unfold stepHost at h
  split at h
  next => cases h
  next hs => cases h; exact ⟨hs, rfl⟩
  next => cases h

/-- Settles O5: `takeFault` sets the latch, on which every step is refused; a reset does not carry the latch over. -/
theorem faultStopsTheCoreUntilReset : Obligations.FaultStopsTheCoreUntilReset := by
  refine ⟨fun s => step_of_faulted, fun s t f h => ⟨?_, rfl⟩⟩
  obtain ⟨-, rfl⟩ := stepHost_fault h
  rw [stepHost, step_of_faulted (takeFault_faulted ..)]

/-! ### Loading, reading and resetting -/

theorem loadProgram_of_fits {bytes : List Byte} (s : State) (h : bytes.length ≤ 3584) :
    loadProgram bytes s = .next { s with mem := Memory.writeList s.mem 0x200 bytes } := if_pos h

theorem loadProgram_of_too_long {bytes : List Byte} (s : State) (h : 3584 < bytes.length) :
    loadProgram bytes s = .refused (.programTooLong bytes.length) := if_neg (Nat.not_le.mpr h)

/-- A program that fits MAX_PROGRAM ends within memory. -/
theorem program_end_le {bytes : List Byte} (h : bytes.length ≤ 3584) : 0x200 + bytes.length ≤ Config.memSize := by
  rw [Config.memSize]; omega

/-- Settles O48: the bytes are one run of writes from 0x200 on. -/
theorem loadProgramCopiesTheBytes : Obligations.LoadProgramCopiesTheBytes := by
  refine fun bytes s => ⟨fun hwf hfits => ⟨_, loadProgram_of_fits s hfits, rfl, fun j hj => ?_, fun a ha => ?_⟩,
    loadProgram_of_too_long s⟩
  · exact read_writeList_inside hwf (program_end_le hfits) j hj
  · exact read_writeList_outside s.mem ha

/-- Settles O50: both reads are the record's own fields. -/
theorem hostReadsOfSoundAndFramebuffer : Obligations.HostReadsOfSoundAndFramebuffer := fun _ => ⟨rfl, rfl⟩

/-- Settles O51: a reset looks at the three fields of the model's own only, and a core without a state takes a reset only. -/
theorem resetFromAnyState : Obligations.ResetFromAnyState := by
  refine ⟨fun _ => rfl, rfl, fun op hop => ?_⟩
  cases op with
  | reset => exact absurd rfl hop
  | _ => rfl

end Sys2Proof.Proofs
end

section
/-! PROOFS. The return stack (41_flow.md section 1): one call, one return, and as many of each in turn. -/

namespace Sys2Proof.Proofs

open Sys2Proof.Machine Sys2Proof.Laws

/-! ### What the instructions are -/

theorem exec_ret_of_pos {s : State} (h : 0 < s.sp.val) :
    exec .ret s = .next { s with sp := ⟨s.sp.val - 1, by omega⟩, pc := s.stack[s.sp.val - 1]'(by omega) } := by
  show execRet s = _
  rw [execRet, pop_some h]

theorem exec_ret_of_empty {s : State} (h : s.sp.val = 0) : exec .ret s = .fault (.stackUnderflow (instrAddress s)) := by
  show execRet s = _
  rw [execRet, pop_empty h]

theorem exec_call_of_room (nnn : Imm12) {s : State} (h : s.sp.val < 16) :
    exec (.call nnn) s = .next { s with
      stack := s.stack.set s.sp.val s.pc h, sp := ⟨s.sp.val + 1, by omega⟩, pc := zext12 nnn } := by
  show execCall nnn s = _
  rw [execCall, push_room s.pc h]

theorem exec_call_of_full (nnn : Imm12) {s : State} (h : s.sp.val = 16) :
    exec (.call nnn) s = .fault (.stackOverflow (instrAddress s)) := by
  show execCall nnn s = _
  rw [execCall, push_full s.pc h]

theorem exec_ret_next {s t : State} (h : exec .ret s = .next t) :
    ∃ hpos : 0 < s.sp.val, t = { s with sp := ⟨s.sp.val - 1, by omega⟩, pc := s.stack[s.sp.val - 1]'(by omega) } := by
  by_cases hpos : 0 < s.sp.val
  · rw [exec_ret_of_pos hpos] at h
    cases h
    exact ⟨hpos, rfl⟩
  · rw [exec_ret_of_empty (Nat.eq_zero_of_not_pos hpos)] at h
    cases h

theorem exec_call_next {nnn : Imm12} {s t : State} (h : exec (.call nnn) s = .next t) :
    ∃ hroom : s.sp.val < 16, t = { s with
      stack := s.stack.set s.sp.val s.pc hroom, sp := ⟨s.sp.val + 1, by omega⟩, pc := zext12 nnn } := by
  by_cases hroom : s.sp.val < 16
  · rw [exec_call_of_room nnn hroom] at h
    cases h
    exact ⟨hroom, rfl⟩
  · rw [exec_call_of_full nnn (by omega)] at h
    cases h

/-- Settles O11: RET is one pop. -/
theorem retPopsThePc : Obligations.RetPopsThePc := fun _ => ⟨exec_ret_of_pos, exec_ret_of_empty⟩

/-- Settles O13: CALL is one push and a jump. -/
theorem callPushesAndJumps : Obligations.CallPushesAndJumps := fun nnn _ =>
  ⟨fun h => ⟨_, exec_call_of_room nnn h, toNat_zext12 nnn, rfl⟩, exec_call_of_full nnn⟩

/-! ### Calls in turn -/

/-- Calls that fit complete, keep every entry that was in use, and leave the first return address on top of those. -/
theorem callAll_of_room (targets : List Imm12) (s : State) (h : s.sp.val + targets.length ≤ 16) :
    ∃ t, callAll targets s = .next t ∧ t.sp.val = s.sp.val + targets.length ∧
      (∀ (j : Nat) (hj : j < 16), j < s.sp.val → t.stack[j] = s.stack[j]) ∧
      (targets ≠ [] → ∃ hsp : s.sp.val < 16, t.stack[s.sp.val] = s.pc) := by
  induction targets generalizing s with
  | nil => exact ⟨s, rfl, rfl, fun _ _ _ => rfl, absurd rfl⟩
  | cons nnn rest ih =>
    rw [List.length_cons] at h
    have hroom : s.sp.val < 16 := by omega
    obtain ⟨t, hcalls, hsp, hkept, -⟩ := ih { s with
      stack := s.stack.set s.sp.val s.pc hroom, sp := ⟨s.sp.val + 1, by omega⟩, pc := zext12 nnn } (by simp only; omega)
    simp only at hsp hkept
    refine ⟨t, ?_, ?_, fun j hj hlt => ?_, fun _ => ⟨hroom, ?_⟩⟩
    · rw [callAll, exec_call_of_room nnn hroom]
      exact hcalls
    · rw [hsp, List.length_cons]; omega
    · rw [hkept j hj (by omega), Vector.getElem_set_ne _ _ (by omega)]
    · rw [hkept _ hroom (by omega), Vector.getElem_set_self]

/-- Calls beyond the 16 entries end in STACK_OVERFLOW. -/
theorem callAll_of_overflow (targets : List Imm12) (s : State) (h : 16 < s.sp.val + targets.length) :
    ∃ a, callAll targets s = .fault (.stackOverflow a) := by
  induction targets generalizing s with
  | nil =>
    have hsp := s.sp.isLt
    simp only [List.length_nil] at h
    omega
  | cons nnn rest ih =>
    rw [List.length_cons] at h
    by_cases hroom : s.sp.val < 16
    · rw [callAll, exec_call_of_room nnn hroom]
      exact ih _ (by simp only; omega)
    · rw [callAll, exec_call_of_full nnn (by omega)]
      exact ⟨_, rfl⟩

/-! ### Returns in turn -/

/-- As many returns as there are entries complete, keep the stack, and leave pc at the entry that the last one popped. -/
theorem retMany_of_depth (k : Nat) (s : State) (h : k ≤ s.sp.val) :
    ∃ u, retMany k s = .next u ∧ u.sp.val = s.sp.val - k ∧ u.stack = s.stack ∧
      ∀ hk : 0 < k, u.pc = s.stack[s.sp.val - k]'(by omega) := by
  induction k generalizing s with
  | zero => exact ⟨s, rfl, rfl, rfl, fun hk => absurd hk (Nat.lt_irrefl 0)⟩
  | succ k ih =>
    have hpos : 0 < s.sp.val := by omega
    obtain ⟨u, hrets, hsp, hstack, hpc⟩ := ih { s with
      sp := ⟨s.sp.val - 1, by omega⟩, pc := s.stack[s.sp.val - 1]'(by omega) } (by simp only; omega)
    refine ⟨u, ?_, ?_, hstack, fun _ => ?_⟩
    · rw [retMany, exec_ret_of_pos hpos]
      exact hrets
    · rw [hsp]; simp only; omega
    · by_cases hk : 0 < k
      · rw [hpc hk]
        simp only [Nat.sub_sub, Nat.add_comm 1 k]
      · obtain rfl : k = 0 := by omega
        cases hrets
        rfl

/-! ### The obligations on nesting -/

/-- Settles O16: the calls leave the first return address in the entry that the last of the returns pops. -/
theorem nestedCallsUnwind : Obligations.NestedCallsUnwind := by
  intro targets s h
  obtain ⟨t, hcalls, hsp, -, hfirst⟩ := callAll_of_room targets s h
  refine ⟨t, hcalls, hsp, fun p m => ?_⟩
  obtain ⟨u, hrets, husp, -, hpc⟩ := retMany_of_depth targets.length { t with pc := p, mem := m } (by simp only; omega)
  refine ⟨u, hrets, Fin.ext (by rw [husp]; simp only; omega), fun hne => ?_⟩
  obtain ⟨hroom, hentry⟩ := hfirst hne
  rw [hpc (List.length_pos_iff.mpr hne), ← hentry]
  simp only [hsp, Nat.add_sub_cancel]

/-- Settles O17: by induction on the targets, the calls that fit raise sp to 16, where the next one faults. -/
theorem seventeenthCallFaults : Obligations.SeventeenthCallFaults := callAll_of_overflow

end Sys2Proof.Proofs
end

section
/-! PROOFS. The rows that write a flag, the random row and the glyph address (42_alu.md, 43_index_memory.md section 2). -/

namespace Sys2Proof.Proofs

open Sys2Proof.Machine Sys2Proof.Laws

/-! ### The flag values -/

theorem flagOf_decide (p : Prop) [Decidable p] : flagOf (decide p) = if p then 1 else 0 := by
  by_cases hp : p <;> simp [flagOf, hp]

theorem carryFlag_eq (a b : Byte) : carryFlag a b = if a.toNat + b.toNat > 255 then 1 else 0 := flagOf_decide _

theorem greaterFlag_eq (a b : Byte) : greaterFlag a b = if a.toNat > b.toNat then 1 else 0 := flagOf_decide _

theorem toNat_lowBitFlag (a : Byte) : (lowBitFlag a).toNat = a.toNat % 2 := by
  rw [lowBitFlag, BitVec.toNat_and]
  exact Nat.and_one_is_mod a.toNat

theorem toNat_highBitFlag : ∀ a : Byte, (highBitFlag a).toNat = a.toNat / 128 := by decide

theorem toNat_shiftRight_one (a : Byte) : (a >>> 1).toNat = a.toNat / 2 := by
  rw [BitVec.toNat_ushiftRight, Nat.shiftRight_eq_div_pow, pow_one]

theorem toNat_shiftLeft_one (a : Byte) : (a <<< 1).toNat = 2 * a.toNat % 256 := by
  rw [BitVec.toNat_shiftLeft, Nat.shiftLeft_eq, pow_one, Nat.mul_comm]

theorem toNat_byte_sub (a b : Byte) : (a - b).toNat = (a.toNat + 256 - b.toNat) % 256 := by
  bv_omega

/-! ### Reading S where an operand is VF (D4) -/

/-- VF as the second operand only: the result is computed from the flag just written. -/
theorem writeFlagAndResult_by_flag (fl re : Byte → Byte → Byte) {x : Reg} (hx : x ≠ vF) (s : State) :
    writeFlagAndResult .sequential fl re x vF s =
      (s.setV vF (fl (s.getV x) (s.getV vF))).setV x (re (s.getV x) (fl (s.getV x) (s.getV vF))) := by
  simp [writeFlagAndResult, getV_setV_other _ _ hx]

/-- VF as the first operand: the result overwrites the flag it was computed from. -/
theorem writeFlagAndResult_to_flag (fl re : Byte → Byte → Byte) (y : Reg) (s : State) :
    writeFlagAndResult .sequential fl re vF y s =
      s.setV vF (re (fl (s.getV vF) (s.getV y)) ((s.setV vF (fl (s.getV vF) (s.getV y))).getV y)) := by
  simp [writeFlagAndResult]

/-! ### What the instructions are -/

/-- 8xy4 latches both operands before any write, whatever x and y are. -/
theorem exec_addVxVy (x y : Reg) (s : State) :
    exec (.addVxVy x y) s =
      .next ((s.setV vF (carryFlag (s.getV x) (s.getV y))).setV x (s.getV x + s.getV y)) := rfl

theorem exec_subVxVy (x y : Reg) (s : State) :
    exec (.subVxVy x y) s = .next (writeFlagAndResult .sequential greaterFlag (fun a b => a - b) x y s) := rfl

theorem exec_subnVxVy (x y : Reg) (s : State) :
    exec (.subnVxVy x y) s =
      .next (writeFlagAndResult .sequential (fun a b => greaterFlag b a) (fun a b => b - a) x y s) := rfl

theorem exec_shrVx (x y : Reg) (s : State) :
    exec (.shrVx x y) s =
      .next (writeFlagAndResult .sequential (fun a _ => lowBitFlag a) (fun a _ => a >>> 1) x y s) := rfl

theorem exec_shlVx (x y : Reg) (s : State) :
    exec (.shlVx x y) s =
      .next (writeFlagAndResult .sequential (fun a _ => highBitFlag a) (fun a _ => a <<< 1) x y s) := rfl

/-- A row whose flag and result do not look at V[y] writes them from V[x] alone, also where y is F. -/
theorem writeFlagAndResult_of_one_operand (fl re : Byte → Byte) {x : Reg} (hx : x ≠ vF) (y : Reg) (s : State) :
    writeFlagAndResult .sequential (fun a _ => fl a) (fun a _ => re a) x y s =
      (s.setV vF (fl (s.getV x))).setV x (re (s.getV x)) := by
  simp [writeFlagAndResult, getV_setV_other _ _ hx]

theorem exec_rnd (x : Reg) (kk : Byte) (s : State) :
    exec (.rnd x kk) s = .next ((drawRandom s).2.setV x (Config.randomByte s.rndDraws &&& kk)) := rfl

theorem exec_ldF (x : Reg) (s : State) : exec (.ldF x) s = .next { s with I := glyphAddress (s.getV x) } := rfl

/-- At most 0x54B, so nothing is lost in the width of I (R133). -/
theorem toNat_glyphAddress (v : Byte) : (glyphAddress v).toNat = 0x050 + 5 * v.toNat := by
  have hv : v.toNat < 2 ^ 8 := v.isLt
  rw [glyphAddress, Params.fontBase, BitVec.toNat_ofNat, Nat.mod_eq_of_lt (by omega)]

/-! ### The frame of a flag write followed by a result write -/

theorem exec_flag_result {i : Instr} {s : State} {x : Reg} {flag result : Byte}
    (hexec : exec i s = .next ((s.setV vF flag).setV x result)) :
    ∃ t, exec i s = .next t ∧ t = { s with V := t.V } ∧ t.getV x = result ∧ (x ≠ vF → t.getV vF = flag) ∧
      ∀ r, r ≠ x → r ≠ vF → t.getV r = s.getV r := by
  refine ⟨_, hexec, rfl, getV_setV_same .., fun hx => ?_, fun r hr hf => ?_⟩
  · rw [getV_setV_other _ _ hx.symm, getV_setV_same]
  · rw [getV_setV_other _ _ hr, getV_setV_other _ _ hf]

/-! ### The obligations -/

/-- Settles O20: the row is a flag write and a result write from the old operands. -/
theorem addWithCarryOut : Obligations.AddWithCarryOut := by
  intro x y s
  obtain ⟨t, hexec, hframe, hx, hflag, hrest⟩ := exec_flag_result (exec_addVxVy x y s)
  refine ⟨t, hexec, hframe, ?_, fun hne => ?_, hrest⟩
  · rw [hx]; exact BitVec.toNat_add ..
  · rw [hflag hne, carryFlag_eq]

/-- A row that writes the comparison of `a` and `b` and their difference, as both subtractions do (R118, R121). -/
theorem exec_difference {i : Instr} {s : State} {x : Reg} {a b : Byte} (hx : x ≠ vF)
    (hexec : exec i s = .next ((s.setV vF (greaterFlag a b)).setV x (a - b))) :
    ∃ t, exec i s = .next t ∧ t = { s with V := t.V } ∧ (t.getV x).toNat = (a.toNat + 256 - b.toNat) % 256 ∧
      t.getV vF = (if a.toNat > b.toNat then 1 else 0) ∧ ∀ r, r ≠ x → r ≠ vF → t.getV r = s.getV r := by
  obtain ⟨t, hexec, hframe, hres, hflag, hrest⟩ := exec_flag_result hexec
  exact ⟨t, hexec, hframe, hres ▸ toNat_byte_sub .., (hflag hx).trans (greaterFlag_eq ..), hrest⟩

/-- Settles O21: without an operand VF both rows write the comparison and the difference of the old operands. -/
theorem subtractFlagIsStrictlyGreater : Obligations.SubtractFlagIsStrictlyGreater := by
  intro x y s hx hy
  constructor
  · exact exec_difference hx (by rw [exec_subVxVy, writeFlagAndResult_plain _ _ _ hx hy])
  · exact exec_difference hx (by rw [exec_subnVxVy, writeFlagAndResult_plain _ _ _ hx hy])

/-- Settles O22: flag and result of a shift come from V[x] alone. -/
theorem shiftsGiveTheBitShiftedOut : Obligations.ShiftsGiveTheBitShiftedOut := by
  intro x y s hx
  constructor
  · have hexec := exec_shrVx x y s
    rw [writeFlagAndResult_of_one_operand _ _ hx] at hexec
    obtain ⟨t, hexec, hframe, hres, hflag, hrest⟩ := exec_flag_result hexec
    exact ⟨t, hexec, hframe, hres ▸ toNat_shiftRight_one _, hflag hx ▸ toNat_lowBitFlag _, hrest⟩
  · have hexec := exec_shlVx x y s
    rw [writeFlagAndResult_of_one_operand _ _ hx] at hexec
    obtain ⟨t, hexec, hframe, hres, hflag, hrest⟩ := exec_flag_result hexec
    exact ⟨t, hexec, hframe, hres ▸ toNat_shiftLeft_one _, hflag hx ▸ toNat_highBitFlag _, hrest⟩

theorem lowBitFlag_shiftRight_one : ∀ a : Byte, lowBitFlag a >>> 1 = 0 := by decide

theorem highBitFlag_shiftLeft_one : ∀ a : Byte, highBitFlag a <<< 1 = highBitFlag a + highBitFlag a := by decide

/-- Settles O23: under reading S the result of a row is computed from the flag wherever an operand is VF. -/
theorem aliasedResults : Obligations.AliasedResults := by
  rintro x s hx a v rfl rfl f
  have hkeep (w : Byte) : (s.setV vF w).getV x = s.getV x := getV_setV_other s w hx
  refine ⟨?_, ?_, ?_, ?_, ?_, ?_, ?_, ?_, ?_, ?_, ?_⟩
  · rintro rfl
    rw [exec_addVxVy, carryFlag_eq]
  · rw [exec_addVxVy, setV_setV]
  · rw [exec_addVxVy, setV_setV]
  · rintro rfl
    rw [exec_subVxVy, writeFlagAndResult_by_flag _ _ hx, greaterFlag_eq]
  · rintro rfl
    rw [exec_subVxVy, writeFlagAndResult_to_flag, hkeep, greaterFlag_eq]
  · rw [exec_subVxVy, writeFlagAndResult_to_flag, getV_setV_same, sub_self]
  · intro y
    rw [exec_shrVx, writeFlagAndResult_to_flag, lowBitFlag_shiftRight_one]
  · rintro rfl
    rw [exec_subnVxVy, writeFlagAndResult_by_flag _ _ hx, greaterFlag_eq]
  · rintro rfl
    rw [exec_subnVxVy, writeFlagAndResult_to_flag, hkeep, greaterFlag_eq]
  · rw [exec_subnVxVy, writeFlagAndResult_to_flag, getV_setV_same, sub_self]
  · intro hf y
    obtain rfl : f = highBitFlag (s.getV vF) := BitVec.eq_of_toNat_eq (hf.trans (toNat_highBitFlag _).symm)
    rw [exec_shlVx, writeFlagAndResult_to_flag, highBitFlag_shiftLeft_one]

/-- A byte masked with kk has no bit outside kk. -/
theorem and_and_not_self (a kk : Byte) : a &&& kk &&& ~~~kk = 0 := by
  rw [BitVec.and_assoc, BitVec.and_not_self]
  exact BitVec.and_zero

/-- Settles O25: the draw touches the counter only, and the write is to V[x] only. -/
theorem rndMasksOneRandomByte : Obligations.RndMasksOneRandomByte := by
  refine fun x kk s => ⟨_, exec_rnd x kk s, rfl, getV_setV_same .., ?_, fun r hr => getV_setV_other _ _ hr⟩
  rw [getV_setV_same, and_and_not_self]

/-- Settles O27: one update of I, to an address that fits it. -/
theorem glyphAddressUsesTheWholeByte : Obligations.GlyphAddressUsesTheWholeByte := fun x s =>
  ⟨_, exec_ldF x s, rfl, toNat_glyphAddress (s.getV x)⟩

end Sys2Proof.Proofs
end

section
/-! PROOFS. The loads and stores through I (43_index_memory.md section 3): in range, what each byte and register holds after them;
out of range, the fault at the first address above 4095. -/

namespace Sys2Proof.Proofs

open Sys2Proof.Machine Sys2Proof.Laws

/-! ### What the instructions are -/

theorem exec_ldB (x : Reg) (s : State) : exec (.ldB x) s = storeAtI (decimalDigits (s.getV x)) s := rfl

theorem exec_ldIVx (x : Reg) (s : State) : exec (.ldIVx x) s = storeAtI ((regsUpTo x).map s.getV) s := rfl

theorem exec_ldVxI (x : Reg) (s : State) :
    exec (.ldVxI x) s = finish (loadRegs (effectiveAddress s 0) (regsUpTo x) s) := rfl

@[simp] theorem length_regsUpTo (x : Reg) : (regsUpTo x).length = x.val + 1 := by
  simp [regsUpTo]

theorem map_val_regsUpTo : ∀ x : Reg, (regsUpTo x).map Fin.val = List.range' 0 (x.val + 1) := by decide

theorem getElem_regsUpTo {x r : Reg} (h : r.val < (regsUpTo x).length) : (regsUpTo x)[r.val] = r := by
  simp [regsUpTo]

/-! ### The store that Fx33 and Fx55 share -/

theorem storeAtI_of_fits {vs : List Byte} {s : State} (h : effectiveAddress s vs.length ≤ Config.memSize) :
    storeAtI vs s = .next { s with mem := Memory.writeList s.mem (effectiveAddress s 0) vs } := by
  rw [storeAtI, storeBytes_fits s.mem (a := effectiveAddress s 0) h]

/-- After a store in range each address of the run holds its byte, every other one what it held. -/
theorem read_after_storeAtI {vs : List Byte} {s : State} (hwf : Memory.wf s.mem = true)
    (h : effectiveAddress s vs.length ≤ Config.memSize) :
    ∃ t, storeAtI vs s = .next t ∧ t = { s with mem := t.mem } ∧
      (∀ (j : Nat) (hj : j < vs.length), Memory.read t.mem (effectiveAddress s j) = vs[j]) ∧
      ∀ a, a < effectiveAddress s 0 ∨ effectiveAddress s vs.length ≤ a → Memory.read t.mem a = Memory.read s.mem a :=
  ⟨_, storeAtI_of_fits h, rfl, fun j hj => read_writeList_inside hwf (a := effectiveAddress s 0) h j hj,
    fun _ ha => read_writeList_outside s.mem ha⟩

/-- A store that does not fit faults at the first address above 4095. -/
theorem storeAtI_of_out {vs : List Byte} {s : State} (hne : vs ≠ []) (h : Config.memSize < effectiveAddress s vs.length) :
    storeAtI vs s = .fault (.writeOob (max (effectiveAddress s 0) Config.memSize)) := by
  rw [storeAtI, storeBytes_out s.mem hne (a := effectiveAddress s 0) h]

/-! ### The load of Fx65 -/

/-- A load in range completes: each register of the list holds its byte, every other one what it held. -/
theorem loadRegs_of_fits {base : Nat} (rs : List Reg) (s : State) (h : ∀ r ∈ rs, base + r.val < Config.memSize) :
    ∃ t, loadRegs base rs s = .ok t ∧
      ∀ r, t.getV r = if r ∈ rs then Memory.read s.mem (base + r.val) else s.getV r := by
  induction rs generalizing s with
  | nil => exact ⟨s, rfl, fun r => by simp⟩
  | cons q rs ih =>
    obtain ⟨t, hload, hregs⟩ := ih (s.setV q (Memory.read s.mem (base + q.val)))
      fun r hr => h r (List.mem_cons_of_mem _ hr)
    refine ⟨t, ?_, fun r => ?_⟩
    · simp only [loadRegs, readMem_in _ _ (h q List.mem_cons_self), hload]
    · rw [hregs r, getV_setV, setV_mem]
      by_cases hr : r ∈ rs
      · simp [hr]
      · by_cases hq : r = q <;> simp [hr, hq]

/-- A load of consecutive registers that does not fit faults at the first address above 4095. -/
theorem loadRegs_of_out {base a k : Nat} {rs : List Reg} (s : State) (hrs : rs.map Fin.val = List.range' a (k + 1))
    (h : Config.memSize < base + a + (k + 1)) :
    loadRegs base rs s = .error (.readOob (max (base + a) Config.memSize)) := by
  induction k generalizing a rs s with
  | zero =>
    obtain ⟨q, rs, rfl, rfl, -⟩ := List.map_eq_cons_iff.mp hrs
    simp only [loadRegs, readMem_out _ _ (show Config.memSize ≤ base + q.val by omega)]
    congr 2; omega
  | succ k ih =>
    obtain ⟨q, rs, rfl, rfl, htail⟩ := List.map_eq_cons_iff.mp hrs
    by_cases hq : base + q.val < Config.memSize
    · simp only [loadRegs, readMem_in _ _ hq]
      rw [ih _ htail (by omega)]
      congr 2; omega
    · simp only [loadRegs, readMem_out _ _ (Nat.le_of_not_lt hq)]
      congr 2; omega

/-! ### The three instructions in range -/

theorem length_map_regsUpTo (x : Reg) (s : State) : ((regsUpTo x).map s.getV).length = x.val + 1 := by simp

theorem toNat_decimalDigits (v : Byte) :
    (decimalDigits v).map BitVec.toNat = [v.toNat / 100, v.toNat / 10 % 10, v.toNat % 10] := by
  simp [decimalDigits]

/-- Settles O28: the three digits are one store from I on. -/
theorem bcdStoresThreeDigits : Obligations.BcdStoresThreeDigits := by
  intro x s hwf h
  obtain ⟨t, hexec, hframe, hin, hout⟩ := read_after_storeAtI (vs := decimalDigits (s.getV x)) hwf (Nat.succ_le_succ h)
  have hdigits := toNat_decimalDigits (s.getV x)
  simp only [decimalDigits, List.map_cons, List.map_nil, List.cons.injEq, and_true] at hdigits
  obtain ⟨hhundreds, htens, hones⟩ := hdigits
  refine ⟨t, (exec_ldB x s).trans hexec, hframe, ?_, ?_, ?_, hout⟩
  · rw [hin 0 (by decide : 0 < 3)]; exact hhundreds
  · rw [hin 1 (by decide : 1 < 3)]; exact htens
  · rw [hin 2 (by decide : 2 < 3)]; exact hones

/-- Settles O29: the registers V0 to Vx are one store from I on. -/
theorem storeRegistersWritesEach : Obligations.StoreRegistersWritesEach := by
  intro x s hwf h
  have hlen := length_map_regsUpTo x s
  obtain ⟨t, hexec, hframe, hin, hout⟩ :=
    read_after_storeAtI (vs := (regsUpTo x).map s.getV) hwf (hlen ▸ Nat.succ_le_succ h)
  rw [hlen] at hout
  refine ⟨t, (exec_ldIVx x s).trans hexec, hframe, fun r hr => ?_, hout⟩
  have hr' : r.val < ((regsUpTo x).map s.getV).length := hlen ▸ Nat.lt_succ_of_le hr
  rw [hin r.val hr', List.getElem_map, getElem_regsUpTo]

/-- Settles O30: the load runs over V0 to Vx, each from its own address. -/
theorem loadRegistersReadsEach : Obligations.LoadRegistersReadsEach := by
  intro x s h
  have hfits : ∀ r ∈ regsUpTo x, effectiveAddress s 0 + r.val < Config.memSize := fun r hr =>
    Nat.lt_succ_of_le ((Nat.add_le_add_left ((mem_regsUpTo x r).mp hr) _).trans h)
  obtain ⟨t, hload, hregs⟩ := loadRegs_of_fits (regsUpTo x) s hfits
  obtain ⟨hframe, -⟩ := loadRegs_frame hload
  refine ⟨t, by rw [exec_ldVxI, hload]; rfl, hframe, fun r => ?_⟩
  simp only [hregs r, mem_regsUpTo]
  rfl

/-! ### Out of range -/

theorem exec_ldB_of_out {x : Reg} {s : State} (h : 4095 < effectiveAddress s 2) :
    exec (.ldB x) s = .fault (.writeOob (max s.I.toNat 4096)) :=
  (exec_ldB x s).trans (storeAtI_of_out (List.cons_ne_nil _ _) (Nat.succ_lt_succ h))

theorem exec_ldIVx_of_out {x : Reg} {s : State} (h : 4095 < effectiveAddress s x.val) :
    exec (.ldIVx x) s = .fault (.writeOob (max s.I.toNat 4096)) := by
  have hlen := length_map_regsUpTo x s
  exact (exec_ldIVx x s).trans (storeAtI_of_out (List.ne_nil_of_length_eq_add_one hlen) (hlen ▸ Nat.succ_lt_succ h))

theorem exec_ldVxI_of_out {x : Reg} {s : State} (h : 4095 < effectiveAddress s x.val) :
    exec (.ldVxI x) s = .fault (.readOob (max s.I.toNat 4096)) := by
  rw [exec_ldVxI, loadRegs_of_out (base := effectiveAddress s 0) s (map_val_regsUpTo x) (Nat.succ_lt_succ h)]
  rfl

/-- Settles O31: the addresses rise by one, so the first bad one is I itself or 4096. -/
theorem transfersFaultAtTheFirstBadAddress : Obligations.TransfersFaultAtTheFirstBadAddress := fun _ _ =>
  ⟨exec_ldB_of_out, exec_ldIVx_of_out, exec_ldVxI_of_out⟩

/-! ### A store and what reads it -/

/-- Settles O32: the load reads, from the same I, the bytes that the store wrote there. -/
theorem storeThenLoadRestoresRegisters : Obligations.StoreThenLoadRestoresRegisters := by
  intro x s V p hwf h
  obtain ⟨t, hstore, hframe, hbytes, -⟩ := storeRegistersWritesEach x s hwf h
  have hI : t.I = s.I := (congrArg State.I hframe :)
  have haddr (j : Nat) : effectiveAddress { t with V := V, pc := p } j = effectiveAddress s j := by
    rw [effectiveAddress, hI, effectiveAddress]
  obtain ⟨u, hload, -, hregs⟩ := loadRegistersReadsEach x { t with V := V, pc := p } (haddr x.val ▸ h)
  refine ⟨t, u, hstore, hload, fun r => ?_⟩
  rw [hregs r, haddr]
  split
  next hr => exact hbytes r hr
  next => rfl

/-- Settles O33: the fetch at pc = I reads the first two bytes of the store. -/
theorem storeIsSeenByTheNextFetch : Obligations.StoreIsSeenByTheNextFetch := by
  intro x s hwf hIpc hx h
  obtain ⟨t, hstore, hframe, hbytes, -⟩ := storeRegistersWritesEach x s hwf h
  have hpc : t.pc.toNat = s.I.toNat := congrArg BitVec.toNat ((congrArg State.pc hframe :).trans hIpc.symm)
  have hbyte0 : Memory.read t.mem t.pc.toNat = s.getV 0 := hpc ▸ hbytes 0 (Nat.zero_le _)
  have hbyte1 : Memory.read t.mem (t.pc.toNat + 1) = s.getV 1 := hpc ▸ hbytes 1 hx
  have hrange : t.pc.toNat ≤ 0xFFE := by
    rw [effectiveAddress] at h; omega
  exact ⟨t, hstore, by rw [fetch_in hrange, hbyte0, hbyte1]⟩

end Sys2Proof.Proofs
end

section
/-! PROOFS. The keys (45_keys_timers.md): the two key skips make one sample, and Fx0A scans the sixteen keys. -/

namespace Sys2Proof.Proofs

open Sys2Proof.Machine Sys2Proof.Laws

/-! ### What the instructions are -/

theorem exec_skp {x k : Reg} {s : State} (hk : selectedKey (s.getV x) = k) :
    exec (.skp x) s = .next ((deliverKeys s).skipIf (deliverKeys s).key[k]) := hk ▸ rfl

theorem exec_sknp {x k : Reg} {s : State} (hk : selectedKey (s.getV x) = k) :
    exec (.sknp x) s = .next ((deliverKeys s).skipIf (!(deliverKeys s).key[k])) := hk ▸ rfl

theorem exec_ldVxK_of_found {x k : Reg} {s t : State} (h : scanKeys (List.finRange 16) s = (some k, t)) :
    exec (.ldVxK x) s = .next (t.setV x (keyByte k)) := by
  show execLdVxK x s = _
  rw [execLdVxK, h]

theorem exec_ldVxK_of_none {x : Reg} {s t : State} (h : scanKeys (List.finRange 16) s = (none, t)) :
    exec (.ldVxK x) s = .next { t with pc := t.pc - 2 } := by
  show execLdVxK x s = _
  rw [execLdVxK, h]

theorem selectedKey_eq {v : Byte} {k : Reg} (h : k.val = v.toNat % 16) : selectedKey v = k := by
  apply Fin.ext
  rw [h]
  exact Nat.mod_mod _ _

/-! ### The scan, sample by sample -/

/-- The scan stops at the first key of its list whose sample is true, after as many samples. -/
theorem scanKeys_of_first {ks : List Reg} {s : State} {j : Nat} (hj : j < ks.length)
    (hit : (deliverMany (j + 1) s).key[ks[j]] = true)
    (miss : ∀ (i : Nat) (hi : i < j), (deliverMany (i + 1) s).key[ks[i]] = false) :
    scanKeys ks s = (some ks[j], deliverMany (j + 1) s) := by
  induction ks generalizing s j with
  | nil => exact absurd hj (Nat.not_lt_zero j)
  | cons k ks ih =>
    cases j with
    | zero => exact if_pos hit
    | succ j =>
      have hfirst : (keySample s k).1 = false := miss 0 (Nat.succ_pos j)
      simp only [scanKeys, hfirst, Bool.false_eq_true, if_false]
      exact ih (s := deliverKeys s) (Nat.lt_of_succ_lt_succ hj) hit fun i hi => miss (i + 1) (Nat.succ_lt_succ hi)

/-- Where every sample is false, the scan makes one for each key of its list. -/
theorem scanKeys_of_all_false {ks : List Reg} {s : State}
    (miss : ∀ (i : Nat) (hi : i < ks.length), (deliverMany (i + 1) s).key[ks[i]] = false) :
    scanKeys ks s = (none, deliverMany ks.length s) := by
  induction ks generalizing s with
  | nil => rfl
  | cons k ks ih =>
    have hfirst : (keySample s k).1 = false := miss 0 (Nat.succ_pos _)
    simp only [scanKeys, hfirst, Bool.false_eq_true, if_false]
    exact ih (s := deliverKeys s) fun i hi => miss (i + 1) (Nat.succ_lt_succ hi)

@[simp] theorem deliverMany_pc (k : Nat) (s : State) : (deliverMany k s).pc = s.pc := by
  obtain ⟨_, _, h⟩ := deliverMany_keeps k s
  rw [h]

theorem deliverMany_none {s : State} (h : s.keyEvents = []) (k : Nat) : deliverMany k s = s := by
  induction k with
  | zero => rfl
  | succ k ih => rw [deliverMany, deliverKeys_none h, ih]

theorem exec_ldVxK_of_first (x : Reg) {s : State} {k : Reg} (hit : sampleInScan s k = true)
    (miss : ∀ j : Reg, j < k → sampleInScan s j = false) :
    exec (.ldVxK x) s = .next ((deliverMany (k.val + 1) s).setV x (BitVec.ofNat 8 k.val)) := by
  have hlen : k.val < (List.finRange 16).length := by rw [List.length_finRange]; exact k.isLt
  have hscan := scanKeys_of_first (s := s) hlen (by simpa [sampleInScan] using hit) fun i hi => by
    simpa [sampleInScan] using miss ⟨i, by omega⟩ hi
  rw [List.getElem_finRange] at hscan
  exact exec_ldVxK_of_found hscan

theorem exec_ldVxK_of_all_false (x : Reg) {s : State} (miss : ∀ k : Reg, sampleInScan s k = false) :
    exec (.ldVxK x) s = .next { deliverMany 16 s with pc := s.pc - 2 } := by
  have hscan := scanKeys_of_all_false (ks := List.finRange 16) (s := s) fun i hi => by
    simpa [sampleInScan] using miss ⟨i, by rwa [List.length_finRange] at hi⟩
  rw [List.length_finRange] at hscan
  rw [exec_ldVxK_of_none hscan, deliverMany_pc]

/-! ### Delivery of key events -/

theorem keyEvent_apply_eq (e : KeyEvent) (s : State) : e.apply s = { s with key := setKey s.key e.key e.down } := by
  unfold KeyEvent.apply setKeyDown setKeyUp
  cases e.down <;> rfl

/-! ### The obligations -/

/-- Settles O41: the sample is of the key that the low nibble of V[x] selects, in the state that delivery leaves. -/
theorem keySkipsSampleOneKey : Obligations.KeySkipsSampleOneKey := by
  intro x k s hk
  rw [exec_skp (selectedKey_eq hk), exec_sknp (selectedKey_eq hk)]
  refine ⟨?_, ?_, deliverKeys_none⟩
  · rw [skipIf_eq_of_iff (deliverKeys s) Iff.rfl, deliverKeys_pc]
  · have hreleased : (!(deliverKeys s).key[k]) = true ↔ ¬ (deliverKeys s).key[k] = true := by simp
    rw [skipIf_eq_of_iff (deliverKeys s) hreleased, deliverKeys_pc, ite_not]

/-- Settles O43: the scan by induction on its list of keys; delivery by the three forms that the list of events can have. -/
theorem keyWaitUnderKeyEvents : Obligations.KeyWaitUnderKeyEvents := by
  refine ⟨fun x s => ⟨fun k => exec_ldVxK_of_first x, exec_ldVxK_of_all_false x⟩, fun s e now later => ⟨deliverKeys_none,
    deliverKeys_some, fun h => ?_⟩⟩
  rw [deliverKeys_some h, deliverKeys_some (now := now) (later := later) rfl, keyEvent_apply_eq]
  rfl

/-- Settles O42: without events every sample sees the key state as it is. -/
theorem keyWaitTakesTheLowestPressedKey : Obligations.KeyWaitTakesTheLowestPressedKey := by
  intro x s hno
  have hsample (k : Reg) : sampleInScan s k = s.key[k] := by rw [sampleInScan, deliverMany_none hno]
  refine ⟨fun k hit miss => ?_, fun miss => ?_⟩
  · rw [exec_ldVxK_of_first x ((hsample k).trans hit) fun j hj => (hsample j).trans (miss j hj), deliverMany_none hno]
  · rw [exec_ldVxK_of_all_false x fun k => (hsample k).trans (miss k), deliverMany_none hno]

/-- Settles O44: the advance of the fetch and the roll back of Fx0A cancel. -/
theorem keyWaitStallsTheStep : Obligations.KeyWaitStallsTheStep := by
  intro x s hf hpc hno miss hdecode
  obtain ⟨-, hnone⟩ := keyWaitTakesTheLowestPressedKey x s.advance hno
  rw [step_of_fetch_ok hf (fetch_in hpc), hdecode, hnone miss]
  have hback : s.advance.pc - 2 = s.pc := add_sub_cancel_right s.pc 2
  rw [hback]
  rfl

end Sys2Proof.Proofs
end

section
/-! PROOFS. The loops of a draw (44_display.md section 3): which reading matters to them, the row that faults, and the loops in
range as one run over the pixels in the order in which R142 processes them. -/

namespace Sys2Proof.Proofs

open Sys2Proof.Machine Sys2Proof.Laws

/-! ### What a draw depends on -/

/-- The registers other than VF hold in `t` what they hold in `s`: what the loops of a draw keep. -/
def AgreeOffFlag (s t : State) : Prop := ∀ r, r ≠ vF → t.getV r = s.getV r

theorem agreeOffFlag_setV (s : State) (v : Byte) : AgreeOffFlag s (s.setV vF v) := fun _ hr => getV_setV_other s v hr

theorem AgreeOffFlag.trans {s t u : State} (hst : AgreeOffFlag s t) (htu : AgreeOffFlag t u) : AgreeOffFlag s u :=
  fun r hr => (htu r hr).trans (hst r hr)

theorem agreeOffFlag_drawCell (cx : Fin 64) (cy : Fin 32) (b : Bool) (s : State) : AgreeOffFlag s (drawCell cx cy b s) :=
  (drawCell_frame cx cy b s).2

theorem agreeOffFlag_drawRow (rd : Config.AliasReading) (s0 : State) (x y : Reg) (row : Nat) (b : Byte) (s : State) :
    AgreeOffFlag s (drawRow rd s0 x y row b s) :=
  (drawRow_frame rd s0 x y row b s).2

/-- Two readings, or two states before the draw, that give the coordinate `r` the same value wherever the loops can come. -/
def SameCoord (rd rd' : Config.AliasReading) (s0 s0' base : State) (r : Reg) : Prop :=
  ∀ s, AgreeOffFlag base s → drawCoord rd s0 s r = drawCoord rd' s0' s r

section
variable {rd rd' : Config.AliasReading} {s0 s0' base : State} {x y : Reg}
  (hx : SameCoord rd rd' s0 s0' base x) (hy : SameCoord rd rd' s0 s0' base y)
include hx hy

theorem drawRow_congr (row : Nat) (b : Byte) {s : State} (hs : AgreeOffFlag base s) :
    drawRow rd s0 x y row b s = drawRow rd' s0' x y row b s := by
  unfold drawRow
  induction List.range 8 generalizing s with
  | nil => rfl
  | cons c cs ih =>
    have hpixel : drawPixel rd s0 x y row b s c = drawPixel rd' s0' x y row b s c := by
      rw [drawPixel, hx s hs, hy s hs, drawPixel]
    rw [List.foldl_cons, List.foldl_cons, hpixel]
    exact ih (hs.trans (agreeOffFlag_drawCell _ _ _ _))

/-- A draw reads nothing of the reading and of the state before it but the two coordinates. -/
theorem drawRows_congr (rows : List Nat) {s : State} (hs : AgreeOffFlag base s) :
    drawRows rd s0 x y rows s = drawRows rd' s0' x y rows s := by
  induction rows generalizing s with
  | nil => rfl
  | cons row rows ih =>
    unfold drawRows
    split
    next b _ =>
      rw [drawRow_congr hx hy row b hs]
      exact ih (hs.trans (agreeOffFlag_drawRow _ _ _ _ _ _ _))
    next => rfl

end

/-- A coordinate other than VF is the same under every reading. -/
theorem sameCoord_of_ne_flag (rd : Config.AliasReading) (s : State) {r : Reg} (hr : r ≠ vF) :
    SameCoord rd .sequential s s s r := by
  intro t ht
  cases rd with
  | sequential => rfl
  | latched | flagLast => exact (ht r hr).symm

theorem drawSprite_reading (rd : Config.AliasReading) {x y : Reg} (n : Nibble) (s : State) (hx : x ≠ vF) (hy : y ≠ vF) :
    drawSprite rd x y n s = drawSprite .sequential x y n s := by
  rw [drawSprite, drawRows_congr (sameCoord_of_ne_flag rd s hx) (sameCoord_of_ne_flag rd s hy) _ (agreeOffFlag_setV s 0),
    drawSprite]

/-- Settles O24: the rows that write a flag by the one lemma on them, a draw because its coordinates are no flag. -/
theorem readingsAgreeWithoutVfOperands : Obligations.ReadingsAgreeWithoutVfOperands := by
  intro rd x y n s hx hy
  have hrow (rd' : Config.AliasReading) (fl re : Byte → Byte → Byte) :
      writeFlagAndResult rd' fl re x y s = writeFlagAndResult .sequential fl re x y s := by
    rw [writeFlagAndResult_plain rd' fl re hx hy, writeFlagAndResult_plain .sequential fl re hx hy]
  refine ⟨?_, hrow .., hrow .., hrow .., hrow .., drawSprite_reading rd n s hx hy⟩
  exact (hrow (latchingReading rd) ..).trans (hrow (latchingReading .sequential) ..).symm

/-! ### What the instruction is -/

theorem exec_drw (x y : Reg) (n : Nibble) (s : State) :
    exec (.drw x y n) s = finish (drawSprite .sequential x y n s) := rfl

/-- Settles O39: the draw overwrites VF before it reads anything, and reading S looks at no value from before that. -/
theorem oldVfDoesNotMatterToADraw : Obligations.OldVfDoesNotMatterToADraw := by
  intro x y n s v
  have hsame (r : Reg) : SameCoord .sequential .sequential (s.setV vF v) s s r := fun _ _ => rfl
  rw [exec_drw, drawSprite, setV_setV, drawRows_congr (hsame x) (hsame y) _ (agreeOffFlag_setV s 0), exec_drw, drawSprite]

/-! ### The row that faults -/

theorem drawRow_I (rd : Config.AliasReading) (s0 : State) (x y : Reg) (row : Nat) (b : Byte) (s : State) :
    (drawRow rd s0 x y row b s).I = s.I := (congrArg State.I (drawRow_frame rd s0 x y row b s).1 :)

/-- Consecutive rows that do not fit fault at the first address above 4095. -/
theorem drawRows_of_out (rd : Config.AliasReading) (s0 : State) (x y : Reg) {a k : Nat} {s : State}
    (h : Config.memSize < effectiveAddress s (a + (k + 1))) :
    drawRows rd s0 x y (List.range' a (k + 1)) s = .error (.readOob (max (effectiveAddress s a) Config.memSize)) := by
  unfold effectiveAddress at h ⊢
  induction k generalizing a s with
  | zero =>
    simp only [List.range'_succ, drawRows, effectiveAddress, readMem_out _ _ (show Config.memSize ≤ s.I.toNat + a by omega)]
    congr 2; omega
  | succ k ih =>
    rw [List.range'_succ]
    by_cases ha : s.I.toNat + a < Config.memSize
    · simp only [drawRows, effectiveAddress, readMem_in _ _ ha]
      rw [ih (by rw [drawRow_I]; omega), drawRow_I]
      congr 2; omega
    · simp only [drawRows, effectiveAddress, readMem_out _ _ (Nat.le_of_not_lt ha)]
      congr 2; omega

/-- Settles O37: the rows are read at rising addresses, the first of which is I. -/
theorem drawFaultsAtTheFirstBadRow : Obligations.DrawFaultsAtTheFirstBadRow := by
  rintro x y n s ⟨row, hrow, hout⟩
  obtain ⟨k, hk⟩ : ∃ k, n.toNat = k + 1 := ⟨n.toNat - 1, by omega⟩
  have hrows : Config.memSize < effectiveAddress (s.setV vF 0) (0 + (k + 1)) := by
    rw [Config.memSize]
    rw [effectiveAddress] at hout ⊢
    rw [setV_I]
    omega
  rw [exec_drw, drawSprite, hk, List.range_eq_range', drawRows_of_out _ _ _ _ hrows]
  rfl

/-! ### The loops in range, pixel by pixel -/

/-- One pixel of a draw from the state `s`: its cell depends on what VF holds in the state `t` reached so far (reading S). -/
def drawStep (s : State) (x y : Reg) (t : State) (p : Nat) : State :=
  drawCell (pixelCell s x y (t.getV vF) p).1 (pixelCell s x y (t.getV vF) p).2 (pixelLit s p) t

/-- The state of a draw from `s` when the pixels below `q` have been drawn. -/
def drawnPixels (s : State) (x y : Reg) (q : Nat) : State := (List.range q).foldl (drawStep s x y) (s.setV vF 0)

@[simp] theorem drawnPixels_zero (s : State) (x y : Reg) : drawnPixels s x y 0 = s.setV vF 0 := rfl

theorem drawnPixels_succ (s : State) (x y : Reg) (q : Nat) :
    drawnPixels s x y (q + 1) = drawStep s x y (drawnPixels s x y q) q := by
  simp [drawnPixels, List.range_succ]

theorem agreeOffFlag_drawnPixels (s : State) (x y : Reg) (q : Nat) : AgreeOffFlag s (drawnPixels s x y q) := by
  induction q with
  | zero => exact agreeOffFlag_setV s 0
  | succ q ih =>
    rw [drawnPixels_succ]
    exact ih.trans (agreeOffFlag_drawCell _ _ _ _)

theorem drawnPixels_frame (s : State) (x y : Reg) (q : Nat) :
    drawnPixels s x y q = { s with V := (drawnPixels s x y q).V, fb := (drawnPixels s x y q).fb } := by
  induction q with
  | zero => rfl
  | succ q ih =>
    rw [drawnPixels_succ, drawStep, (drawCell_frame ..).1, ih]

/-- In a state that a draw from `s` reaches, a coordinate is VF's value if it is VF, and what it was in `s` if it is not. -/
theorem coordWithFlag_of_agree {s t : State} (h : AgreeOffFlag s t) (r : Reg) : coordWithFlag s (t.getV vF) r = t.getV r := by
  by_cases hr : r = vF
  · rw [hr, coordWithFlag_vF]
  · rw [coordWithFlag_other s _ hr, h r hr]

theorem drawPixel_eq_drawStep {s t : State} (h : AgreeOffFlag s t) (x y : Reg) (row : Nat) {col : Nat} (hcol : col < 8) :
    drawPixel .sequential s x y row (Memory.read s.mem (effectiveAddress s row)) t col = drawStep s x y t (8 * row + col) := by
  have hdiv : (8 * row + col) / 8 = row := by omega
  have hmod : (8 * row + col) % 8 = col := by omega
  simp only [drawStep, pixelCell, pixelLit, hdiv, hmod, coordWithFlag_of_agree h]
  rfl

theorem drawCols_eq_drawnPixels (s : State) (x y : Reg) (row : Nat) {m : Nat} (hm : m ≤ 8) :
    (List.range m).foldl (drawPixel .sequential s x y row (Memory.read s.mem (effectiveAddress s row)))
      (drawnPixels s x y (8 * row)) = drawnPixels s x y (8 * row + m) := by
  induction m with
  | zero => rfl
  | succ m ih =>
    rw [List.range_succ, List.foldl_append, ih (by omega), List.foldl_cons, List.foldl_nil,
      drawPixel_eq_drawStep (agreeOffFlag_drawnPixels s x y _) x y row hm, ← drawnPixels_succ, Nat.add_assoc]

theorem drawRow_eq_drawnPixels (s : State) (x y : Reg) (row : Nat) :
    drawRow .sequential s x y row (Memory.read s.mem (effectiveAddress s row)) (drawnPixels s x y (8 * row)) =
      drawnPixels s x y (8 * (row + 1)) :=
  drawCols_eq_drawnPixels s x y row (Nat.le_refl 8)

theorem drawRows_eq_drawnPixels (s : State) (x y : Reg) {a k : Nat}
    (h : ∀ row, row < a + k → effectiveAddress s row ≤ 4095) :
    drawRows .sequential s x y (List.range' a k) (drawnPixels s x y (8 * a)) = .ok (drawnPixels s x y (8 * (a + k))) := by
  induction k generalizing a with
  | zero => rfl
  | succ k ih =>
    have hframe := drawnPixels_frame s x y (8 * a)
    have hmem : (drawnPixels s x y (8 * a)).mem = s.mem := (congrArg State.mem hframe :)
    have haddr : effectiveAddress (drawnPixels s x y (8 * a)) a = effectiveAddress s a := by
      rw [effectiveAddress, (congrArg State.I hframe :), effectiveAddress]
    have hin : effectiveAddress s a < Config.memSize := Nat.lt_succ_of_le (h a (by omega))
    simp only [List.range'_succ, drawRows, hmem, haddr, readMem_in _ _ hin]
    rw [drawRow_eq_drawnPixels, ih fun row hrow => h row (by omega), Nat.add_assoc, Nat.add_comm 1 k]

/-- A draw whose rows are in range draws its pixels and marks dirty. -/
theorem exec_drw_of_fits (x y : Reg) {n : Nibble} {s : State} (h : ∀ row, row < n.toNat → effectiveAddress s row ≤ 4095) :
    exec (.drw x y n) s = .next { drawnPixels s x y (8 * n.toNat) with dirty := true } := by
  have hrows := drawRows_eq_drawnPixels s x y (a := 0) (k := n.toNat) fun row hrow => h row (by omega)
  rw [Nat.zero_add, Nat.mul_zero, ← List.range_eq_range', drawnPixels_zero] at hrows
  rw [exec_drw, drawSprite, hrows]
  rfl

end Sys2Proof.Proofs
end

section
/-! PROOFS. What a draw leaves (44_display.md section 3): the framebuffer as an XOR with the pixels drawn, and VF from the first
pixel that hits a lit cell on. -/

namespace Sys2Proof.Proofs

open Sys2Proof.Machine Sys2Proof.Laws

/-! ### The pixels of a sprite and their cells -/

/-- Sprites are narrower and lower than the screen, so for one value of VF no two pixels share a cell. -/
theorem pixelCell_injective {s : State} {x y : Reg} {flag : Byte} {p q : Nat} (hp : p < 256) (hq : q < 256)
    (h : pixelCell s x y flag p = pixelCell s x y flag q) : p = q := by
  obtain ⟨hcol, hrow⟩ := Prod.ext_iff.mp h
  have hcol' : ((coordWithFlag s flag x).toNat + p % 8) % 64 = ((coordWithFlag s flag x).toNat + q % 8) % 64 :=
    congrArg Fin.val hcol
  have hrow' : ((coordWithFlag s flag y).toNat + p / 8) % 32 = ((coordWithFlag s flag y).toNat + q / 8) % 32 :=
    congrArg Fin.val hrow
  omega

theorem pixelCell_of_ne_flag {s : State} {x y : Reg} (hx : x ≠ vF) (hy : y ≠ vF) (flag flag' : Byte) (p : Nat) :
    pixelCell s x y flag p = pixelCell s x y flag' p := by
  simp only [pixelCell, coordWithFlag_other s _ hx, coordWithFlag_other s _ hy]

theorem pixelsOn_iff {s : State} {x y : Reg} {flag : Byte} {lo hi : Nat} {cx : Fin 64} {cy : Fin 32} :
    pixelsOn s x y flag lo hi cx cy = true ↔
      ∃ p, lo ≤ p ∧ p < hi ∧ pixelLit s p = true ∧ pixelCell s x y flag p = (cx, cy) := by
  simp only [pixelsOn, List.any_eq_true, List.mem_range, Bool.and_eq_true, decide_eq_true_eq, beq_iff_eq]
  constructor
  · rintro ⟨p, hhi, ⟨hlo, hlit⟩, hcell⟩
    exact ⟨p, hlo, hhi, hlit, hcell⟩
  · rintro ⟨p, hlo, hhi, hlit, hcell⟩
    exact ⟨p, hhi, ⟨hlo, hlit⟩, hcell⟩

theorem pixelsOn_self (s : State) (x y : Reg) (flag : Byte) (q : Nat) (cx : Fin 64) (cy : Fin 32) :
    pixelsOn s x y flag q q cx cy = false := by
  refine Bool.eq_false_iff.mpr fun h => ?_
  obtain ⟨p, hlo, hhi, -⟩ := pixelsOn_iff.mp h
  exact absurd hhi (Nat.not_lt.mpr hlo)

/-- No pixel before pixel `q` lands on its cell. -/
theorem pixelsOn_before_own_cell (s : State) (x y : Reg) (flag : Byte) (lo : Nat) {q : Nat} (hq : q < 256) :
    pixelsOn s x y flag lo q (pixelCell s x y flag q).1 (pixelCell s x y flag q).2 = false := by
  refine Bool.eq_false_iff.mpr fun h => ?_
  obtain ⟨p, -, hpq, -, hcell⟩ := pixelsOn_iff.mp h
  exact absurd (pixelCell_injective (hpq.trans hq) hq hcell) (Nat.ne_of_lt hpq)

/-- One more pixel toggles its own cell, on which no earlier one has landed. -/
theorem pixelsOn_succ (s : State) (x y : Reg) (flag : Byte) {lo q : Nat} (hlo : lo ≤ q) (hq : q < 256) (cx : Fin 64)
    (cy : Fin 32) :
    pixelsOn s x y flag lo (q + 1) cx cy =
      (pixelsOn s x y flag lo q cx cy ^^ (pixelLit s q && pixelCell s x y flag q == (cx, cy))) := by
  have hor : pixelsOn s x y flag lo (q + 1) cx cy =
      (pixelsOn s x y flag lo q cx cy || (pixelLit s q && pixelCell s x y flag q == (cx, cy))) := by
    simp [pixelsOn, List.range_succ, hlo]
  rw [hor]
  by_cases hcell : pixelCell s x y flag q = (cx, cy)
  · have hbefore := pixelsOn_before_own_cell s x y flag lo hq
    rw [hcell] at hbefore
    rw [hbefore, Bool.false_or, Bool.false_xor]
  · rw [beq_eq_false_iff_ne.mpr hcell, Bool.and_false, Bool.or_false, Bool.xor_false]

/-- The pattern of R143 is that of the sprite's pixels, with a coordinate VF at 0 throughout. -/
theorem spritePattern_eq_pixelsOn (s : State) (x y : Reg) (n : Nibble) (cx : Fin 64) (cy : Fin 32) :
    spritePattern s (coordWithFlag s 0 x) (coordWithFlag s 0 y) n cx cy = pixelsOn s x y 0 0 (8 * n.toNat) cx cy := by
  rw [Bool.eq_iff_iff, pixelsOn_iff]
  simp only [spritePattern, List.any_eq_true, List.mem_range, Bool.and_eq_true, beq_iff_eq, pixelCell, pixelLit,
    Prod.mk.injEq]
  constructor
  · rintro ⟨row, hrow, col, hcol, ⟨hcx, hcy⟩, hlit⟩
    have hdiv : (8 * row + col) / 8 = row := by omega
    have hmod : (8 * row + col) % 8 = col := by omega
    exact ⟨8 * row + col, Nat.zero_le _, by omega, by rw [hdiv, hmod]; exact hlit, by rw [hmod]; exact hcx,
      by rw [hdiv]; exact hcy⟩
  · rintro ⟨p, -, hp, hlit, hcx, hcy⟩
    exact ⟨p / 8, by omega, p % 8, by omega, ⟨hcx, hcy⟩, hlit⟩

/-- The sprite hits exactly when one of its pixels does. -/
theorem spriteHits_iff (s : State) (x y : Reg) (n : Nibble) :
    SpriteHits s (coordWithFlag s 0 x) (coordWithFlag s 0 y) n ↔ ∃ p, p < 8 * n.toNat ∧ PixelHits s x y p := by
  simp only [SpriteHits, spritePattern_eq_pixelsOn, pixelsOn_iff]
  constructor
  · rintro ⟨cx, cy, hfb, p, -, hp, hlit, hcell⟩
    exact ⟨p, hp, hlit, by rw [hcell]; exact hfb⟩
  · rintro ⟨p, hp, hlit, hfb⟩
    exact ⟨_, _, hfb, p, Nat.zero_le p, hp, hlit, rfl⟩

/-- A sprite has at most 15 rows, so its pixels are within the bound of `pixelCell_injective`. -/
theorem pixels_le (n : Nibble) : 8 * n.toNat ≤ 256 := by
  have := n.isLt
  omega

/-! ### One pixel -/

theorem drawCell_fb (cx : Fin 64) (cy : Fin 32) (b : Bool) (t : State) (cx' : Fin 64) (cy' : Fin 32) :
    (drawCell cx cy b t).fb.get cx' cy' = (t.fb.get cx' cy' ^^ (b && (cx, cy) == (cx', cy'))) := by
  have hfb : (drawCell cx cy b t).fb = t.fb.put cx cy (t.fb.get cx cy ^^ b) :=
    (congrArg State.fb (drawCell_frame cx cy b t).1 :)
  rw [hfb]
  by_cases hcell : cx' = cx ∧ cy' = cy
  · obtain ⟨rfl, rfl⟩ := hcell
    rw [fb_get_put_same, beq_self_eq_true, Bool.and_true]
  · have hne : ((cx, cy) == (cx', cy')) = false :=
      beq_eq_false_iff_ne.mpr fun h => hcell ⟨(Prod.ext_iff.mp h).1.symm, (Prod.ext_iff.mp h).2.symm⟩
    rw [fb_get_put_other _ _ hcell, hne, Bool.and_false, Bool.xor_false]

/-- A lit pixel on a lit cell is a collision; any other pixel leaves VF alone. -/
theorem drawCell_flag (cx : Fin 64) (cy : Fin 32) (b : Bool) (t : State) :
    (drawCell cx cy b t).getV vF = if b = true ∧ t.fb.get cx cy = true then 1 else t.getV vF := by
  have hcollides : (t.fb.get cx cy && !(t.fb.get cx cy ^^ b)) = true ↔ b = true ∧ t.fb.get cx cy = true := by
    cases t.fb.get cx cy <;> cases b <;> decide
  simp only [drawCell, hcollides]
  split
  next => exact getV_setV_same t vF 1
  next => rfl

section
variable (s : State) (x y : Reg)

/-- The cell on which pixel `q` lands in the draw. -/
def landingCell (q : Nat) : Fin 64 × Fin 32 := pixelCell s x y ((drawnPixels s x y q).getV vF) q

theorem drawnPixels_succ_fb (q : Nat) (cx : Fin 64) (cy : Fin 32) :
    (drawnPixels s x y (q + 1)).fb.get cx cy =
      ((drawnPixels s x y q).fb.get cx cy ^^ (pixelLit s q && landingCell s x y q == (cx, cy))) := by
  rw [drawnPixels_succ]
  exact drawCell_fb ..

theorem drawnPixels_succ_flag (q : Nat) :
    (drawnPixels s x y (q + 1)).getV vF =
      if pixelLit s q = true ∧ (drawnPixels s x y q).fb.get (landingCell s x y q).1 (landingCell s x y q).2 = true then 1
      else (drawnPixels s x y q).getV vF := by
  rw [drawnPixels_succ]
  exact drawCell_flag ..

theorem drawnPixels_zero_flag : (drawnPixels s x y 0).getV vF = 0 := getV_setV_same s vF 0

end

section
variable {s : State} {x y : Reg}

theorem drawnPixels_flag_zero_or_one (q : Nat) :
    (drawnPixels s x y q).getV vF = 0 ∨ (drawnPixels s x y q).getV vF = 1 := by
  induction q with
  | zero => exact .inl (drawnPixels_zero_flag s x y)
  | succ q ih =>
    rw [drawnPixels_succ_flag]
    split
    · exact .inr rfl
    · exact ih

/-- A collision is never taken back. -/
theorem drawnPixels_flag_one_stays {k q : Nat} (hkq : k ≤ q) (h : (drawnPixels s x y k).getV vF = 1) :
    (drawnPixels s x y q).getV vF = 1 := by
  induction q, hkq using Nat.le_induction with
  | base => exact h
  | succ q _ ih => rw [drawnPixels_succ_flag, ih, ite_self]

/-- A stretch of pixels that all land where VF = `flag` puts them toggles the cells of its lit ones. -/
theorem drawnPixels_fb_of_stretch {flag : Byte} {lo hi : Nat} (hlohi : lo ≤ hi) (hhi : hi ≤ 256)
    (hland : ∀ p, lo ≤ p → p < hi → landingCell s x y p = pixelCell s x y flag p) (cx : Fin 64) (cy : Fin 32) :
    (drawnPixels s x y hi).fb.get cx cy = ((drawnPixels s x y lo).fb.get cx cy ^^ pixelsOn s x y flag lo hi cx cy) := by
  induction hi, hlohi using Nat.le_induction with
  | base => rw [pixelsOn_self, Bool.xor_false]
  | succ q hloq ih =>
    rw [drawnPixels_succ_fb, ih (by omega) fun p hp hpq => hland p hp (by omega), hland q hloq (by omega),
      pixelsOn_succ s x y flag hloq (by omega), Bool.xor_assoc]

/-- While VF is 0, the cell of the next pixel is as it was before the draw. -/
theorem drawnPixels_fb_own_cell {q : Nat} (hq : q < 256) (hzero : ∀ p, p < q → (drawnPixels s x y p).getV vF = 0) :
    (drawnPixels s x y q).fb.get (pixelCell s x y 0 q).1 (pixelCell s x y 0 q).2 =
      s.fb.get (pixelCell s x y 0 q).1 (pixelCell s x y 0 q).2 := by
  rw [drawnPixels_fb_of_stretch (flag := 0) (Nat.zero_le q) hq.le fun p _ hp => by rw [landingCell, hzero p hp],
    pixelsOn_before_own_cell s x y 0 0 hq, Bool.xor_false]
  rfl

/-- While VF is 0, the next pixel collides exactly when it hits a cell that was lit before the draw. -/
theorem drawnPixels_succ_flag_of_zero {q : Nat} (hq : q < 256) (hzero : ∀ p, p ≤ q → (drawnPixels s x y p).getV vF = 0) :
    (PixelHits s x y q → (drawnPixels s x y (q + 1)).getV vF = 1) ∧
      (¬ PixelHits s x y q → (drawnPixels s x y (q + 1)).getV vF = 0) := by
  have hland : landingCell s x y q = pixelCell s x y 0 q := by rw [landingCell, hzero q le_rfl]
  have hown := drawnPixels_fb_own_cell hq fun p hp => hzero p hp.le
  rw [drawnPixels_succ_flag, hland, hown, hzero q le_rfl]
  exact ⟨fun hit => if_pos hit, fun miss => if_neg miss⟩

theorem drawnPixels_flag_of_no_hit {q : Nat} (hq : q ≤ 256) (miss : ∀ p, p < q → ¬ PixelHits s x y p) :
    (drawnPixels s x y q).getV vF = 0 := by
  induction q using Nat.strong_induction_on with
  | _ q ih =>
    cases q with
    | zero => exact drawnPixels_zero_flag s x y
    | succ q =>
      have hzero (p : Nat) (hp : p ≤ q) : (drawnPixels s x y p).getV vF = 0 :=
        ih p (by omega) (by omega) fun p' hp' => miss p' (by omega)
      exact (drawnPixels_succ_flag_of_zero hq hzero).2 (miss q (Nat.lt_succ_self q))

theorem drawnPixels_flag_of_first_hit {k q : Nat} (hkq : k < q) (hq : q ≤ 256) (hit : PixelHits s x y k)
    (miss : ∀ p, p < k → ¬ PixelHits s x y p) : (drawnPixels s x y q).getV vF = 1 := by
  have hzero (p : Nat) (hp : p ≤ k) : (drawnPixels s x y p).getV vF = 0 :=
    drawnPixels_flag_of_no_hit (by omega) fun p' hp' => miss p' (by omega)
  exact drawnPixels_flag_one_stays hkq ((drawnPixels_succ_flag_of_zero (by omega) hzero).1 hit)

theorem exists_first_hit {p q : Nat} (hpq : p < q) (hit : PixelHits s x y p) :
    ∃ k, k < q ∧ PixelHits s x y k ∧ ∀ j, j < k → ¬ PixelHits s x y j := by
  classical
  have hex : ∃ k, PixelHits s x y k := ⟨p, hit⟩
  exact ⟨Nat.find hex, (Nat.find_min' hex hit).trans_lt hpq, Nat.find_spec hex, fun j hj => Nat.find_min hex hj⟩

/-- VF after a draw in range: whether the sprite, placed with a coordinate VF at 0, hits (R142). -/
theorem drawnPixels_flag_of_hits {n : Nibble} (h : SpriteHits s (coordWithFlag s 0 x) (coordWithFlag s 0 y) n) :
    (drawnPixels s x y (8 * n.toNat)).getV vF = 1 := by
  obtain ⟨p, hp, hit⟩ := (spriteHits_iff s x y n).mp h
  obtain ⟨k, hk, hit, miss⟩ := exists_first_hit hp hit
  exact drawnPixels_flag_of_first_hit hk (pixels_le n) hit miss

theorem drawnPixels_flag_of_not_hits {n : Nibble} (h : ¬ SpriteHits s (coordWithFlag s 0 x) (coordWithFlag s 0 y) n) :
    (drawnPixels s x y (8 * n.toNat)).getV vF = 0 :=
  drawnPixels_flag_of_no_hit (pixels_le n) fun p hp hit => h ((spriteHits_iff s x y n).mpr ⟨p, hp, hit⟩)

/-- Where VF stays 0, or is no coordinate, the whole draw is one XOR with the pattern of R143. -/
theorem drawnPixels_fb_eq_pattern {n : Nibble}
    (hland : ∀ p, p < 8 * n.toNat → landingCell s x y p = pixelCell s x y 0 p) (cx : Fin 64) (cy : Fin 32) :
    (drawnPixels s x y (8 * n.toNat)).fb.get cx cy =
      (s.fb.get cx cy ^^ spritePattern s (coordWithFlag s 0 x) (coordWithFlag s 0 y) n cx cy) := by
  rw [drawnPixels_fb_of_stretch (Nat.zero_le _) (pixels_le n) fun p _ => hland p, spritePattern_eq_pixelsOn]
  rfl

end

/-- What a draw in range answers differs from the state before it in V, the framebuffer and dirty. -/
theorem drawnPixels_dirty_frame (s : State) (x y : Reg) (q : Nat) :
    { drawnPixels s x y q with dirty := true } =
      { s with V := (drawnPixels s x y q).V, fb := (drawnPixels s x y q).fb, dirty := true } :=
  congrArg (fun t => { t with dirty := true }) (drawnPixels_frame s x y q)

/-! ### The obligations -/

/-- Settles O35: no pixel's cell depends on VF, so the draw is one stretch. -/
theorem drawIsXorWithTheWrappedSprite : Obligations.DrawIsXorWithTheWrappedSprite := by
  intro x y n s hx hy h
  rw [← coordWithFlag_other s 0 hx, ← coordWithFlag_other s 0 hy]
  refine ⟨_, exec_drw_of_fits x y h, drawnPixels_dirty_frame s x y _, ?_, drawnPixels_flag_of_hits,
    drawnPixels_flag_of_not_hits, agreeOffFlag_drawnPixels s x y _⟩
  exact drawnPixels_fb_eq_pattern fun p _ => pixelCell_of_ne_flag hx hy _ _ p

/-- The pattern of a sprite depends on the memory and on I, and on no other state. -/
theorem spritePattern_congr {s t : State} (hmem : t.mem = s.mem) (hI : t.I = s.I) (vx vy : Byte) (n : Nibble) :
    spritePattern t vx vy n = spritePattern s vx vy n := by
  funext cx cy
  simp only [spritePattern, effectiveAddress, hmem, hI]

/-- Settles O36: the second draw XORs the same pattern, and hits where the first one lit a cell. -/
theorem drawingTwiceRestores : Obligations.DrawingTwiceRestores := by
  intro x y n s p hx hy h
  obtain ⟨t, hfirst, hframe, hfb, -, -, hregs⟩ := drawIsXorWithTheWrappedSprite x y n s hx hy h
  have hmem : t.mem = s.mem := (congrArg State.mem hframe :)
  have hI : t.I = s.I := (congrArg State.I hframe :)
  have hrows : ∀ row, row < n.toNat → effectiveAddress { t with pc := p } row ≤ 4095 := by
    simpa only [effectiveAddress, hI] using h
  obtain ⟨u, hsecond, -, hfb', hhit, hmiss, -⟩ := drawIsXorWithTheWrappedSprite x y n { t with pc := p } hx hy hrows
  have hvx : State.getV { t with pc := p } x = s.getV x := hregs x hx
  have hvy : State.getV { t with pc := p } y = s.getV y := hregs y hy
  have hpattern := spritePattern_congr (t := { t with pc := p }) hmem hI (s.getV x) (s.getV y) n
  rw [hvx, hvy] at hhit hmiss hfb'
  have hits : SpriteHits { t with pc := p } (s.getV x) (s.getV y) n ↔
      ∃ cx cy, spritePattern s (s.getV x) (s.getV y) n cx cy = true ∧ s.fb.get cx cy = false := by
    simp only [SpriteHits, hpattern, hfb]
    refine exists_congr fun cx => exists_congr fun cy => ?_
    cases s.fb.get cx cy <;> cases spritePattern s (s.getV x) (s.getV y) n cx cy <;> decide
  refine ⟨t, u, hfirst, hsecond, fb_ext fun cx cy => ?_, ?_⟩
  · rw [hfb', hpattern, hfb, Bool.xor_assoc, Bool.xor_self, Bool.xor_false]
  · rw [← hits]
    refine ⟨fun hone => ?_, hhit⟩
    by_contra hno
    rw [hmiss hno] at hone
    exact absurd hone (by decide)

/-- A pixel of the draw lands on a cell that the sprite covers. -/
theorem spriteCovers_landingCell (s : State) (x y : Reg) {n : Nibble} {q : Nat} (hq : q < 8 * n.toNat) :
    spriteCovers s x y n (landingCell s x y q).1.val (landingCell s x y q).2.val = true := by
  have hflag : (drawnPixels s x y q).getV vF ∈ drawFlags (q / 8) (q % 8) := by
    unfold drawFlags
    split
    next hfirst =>
      obtain rfl : q = 0 := by omega
      rw [drawnPixels_zero_flag]
      exact List.mem_singleton_self 0
    next => simpa using drawnPixels_flag_zero_or_one q
  simp only [spriteCovers, List.any_eq_true, List.mem_range]
  refine ⟨q / 8, by omega, q % 8, by omega, _, hflag, ?_⟩
  rw [Bool.and_eq_true, beq_iff_eq, beq_iff_eq, spriteCoord_eq, spriteCoord_eq]
  exact ⟨rfl, rfl⟩

theorem drawnPixels_fb_of_not_covered {s : State} {x y : Reg} {n : Nibble} {cx : Fin 64} {cy : Fin 32}
    (h : spriteCovers s x y n cx.val cy.val = false) {q : Nat} (hq : q ≤ 8 * n.toNat) :
    (drawnPixels s x y q).fb.get cx cy = s.fb.get cx cy := by
  induction q with
  | zero => rfl
  | succ q ih =>
    have hother : landingCell s x y q ≠ (cx, cy) := by
      intro hcell
      have hcovers := spriteCovers_landingCell s x y hq
      rw [hcell, h] at hcovers
      exact absurd hcovers Bool.false_ne_true
    rw [drawnPixels_succ_fb, beq_eq_false_iff_ne.mpr hother, Bool.and_false, Bool.xor_false, ih (by omega)]

/-- Settles O38: each pixel keeps VF at 0 or 1 and toggles a covered cell or none. -/
theorem drawCompletesInEveryForm : Obligations.DrawCompletesInEveryForm := fun x y _ s h =>
  ⟨_, exec_drw_of_fits x y h, drawnPixels_dirty_frame s x y _, drawnPixels_flag_zero_or_one _,
    agreeOffFlag_drawnPixels s x y _, fun _ _ hcell => drawnPixels_fb_of_not_covered hcell le_rfl⟩

/-- Settles O40: without a hit the draw is one stretch with VF at 0; with a first hit at pixel k it is two, with VF at 0 up to k
and at 1 after it. -/
theorem vfCoordinateIsZeroBeforeACollision : Obligations.VfCoordinateIsZeroBeforeACollision := by
  intro x y n s h
  refine ⟨?_, fun k hk hit miss => ?_⟩
  · rintro vx vy rfl rfl hno
    refine ⟨_, exec_drw_of_fits x y h, drawnPixels_flag_of_not_hits hno, drawnPixels_fb_eq_pattern fun p hp => ?_⟩
    have hbefore : ∀ j, j < p → ¬ PixelHits s x y j := fun j hj hit =>
      hno ((spriteHits_iff s x y n).mpr ⟨j, hj.trans hp, hit⟩)
    rw [landingCell, drawnPixels_flag_of_no_hit (hp.le.trans (pixels_le n)) hbefore]
  · have hbound := pixels_le n
    refine ⟨_, exec_drw_of_fits x y h, drawnPixels_flag_of_first_hit hk hbound hit miss, fun cx cy => ?_⟩
    have hupto (p : Nat) (hp : p < k + 1) : landingCell s x y p = pixelCell s x y 0 p := by
      rw [landingCell, drawnPixels_flag_of_no_hit (by omega) fun j hj => miss j (by omega)]
    have hafter (p : Nat) (hp : k + 1 ≤ p) (hp' : p < 8 * n.toNat) : landingCell s x y p = pixelCell s x y 1 p := by
      rw [landingCell, drawnPixels_flag_of_first_hit hp (by omega) hit miss]
    show (drawnPixels s x y (8 * n.toNat)).fb.get cx cy = _
    rw [drawnPixels_fb_of_stretch hk hbound hafter, drawnPixels_fb_of_stretch (Nat.zero_le _) (by omega) fun p _ => hupto p]
    rfl

end Sys2Proof.Proofs
end

section
/-! PROOFS. What an instruction that completes can change (10_state.md section 16), and where it completes
(60_exceptions.md section 1). -/

namespace Sys2Proof.Proofs

open Sys2Proof.Machine Sys2Proof.Laws

/-! ### What the shared operations answer, when they answer a next state -/

theorem finish_next {e : Except Fault State} {t : State} (h : finish e = .next t) : e = .ok t := by
  cases e with
  | ok _ => cases h; rfl
  | error _ => cases h

/-- A run of byte stores that succeeds is the run of writes. -/
theorem storeBytes_ok {m m' : Memory} {a : Nat} {vs : List Byte} (h : storeBytes m a vs = .ok m') :
    m' = Memory.writeList m a vs := by
  by_cases hne : vs = []
  · subst hne
    cases h
    rfl
  · by_cases hfits : a + vs.length ≤ Config.memSize
    · rw [storeBytes_fits m hfits] at h
      cases h
      rfl
    · rw [storeBytes_out m hne (by omega)] at h
      cases h

theorem storeAtI_next {vs : List Byte} {s t : State} (h : storeAtI vs s = .next t) :
    t = { s with mem := t.mem } ∧ storeBytes s.mem (effectiveAddress s 0) vs = .ok t.mem := by
  unfold storeAtI at h
  split at h
  next hs => cases h; exact ⟨rfl, hs⟩
  next => cases h

theorem flagRow_next {rd : Config.AliasReading} {fl re : Byte → Byte → Byte} {x y : Reg} {s t : State}
    (h : (.next (writeFlagAndResult rd fl re x y s) : Answer) = .next t) :
    t = { s with V := t.V } ∧ ∀ r, r ≠ x → r ≠ vF → t.getV r = s.getV r := by
  cases h
  exact writeFlagAndResult_frame rd fl re x y s

theorem exec_drw_next {x y : Reg} {n : Nibble} {s t : State} (h : exec (.drw x y n) s = .next t) :
    t = { s with V := t.V, fb := t.fb, dirty := true } ∧ AgreeOffFlag s t := by
  have hok := finish_next h
  unfold drawSprite at hok
  split at hok
  next u hrows =>
    obtain ⟨hframe, hregs⟩ := drawRows_frame hrows
    cases hok
    exact ⟨congrArg (fun u => { u with dirty := true }) hframe, (agreeOffFlag_setV s 0).trans hregs⟩
  next => cases hok

theorem skipIf_frame (s : State) (c : Bool) : s.skipIf c = { s with pc := (s.skipIf c).pc } := by
  cases c <;> rfl

/-- A key skip changes pc and what its one sample changes. -/
theorem skipIf_deliverKeys_frame (s : State) (c : Bool) :
    (deliverKeys s).skipIf c = { s with
      key := ((deliverKeys s).skipIf c).key, keyEvents := ((deliverKeys s).skipIf c).keyEvents,
      pc := ((deliverKeys s).skipIf c).pc } := by
  obtain ⟨key, events, h⟩ := deliverKeys_keeps s
  rw [h]
  cases c <;> rfl

/-- Fx0A writes V[x] or rolls pc back, after a scan that changes only what its samples change. -/
theorem exec_ldVxK_cases {x : Reg} {s t : State} (h : exec (.ldVxK x) s = .next t) :
    ∃ u, (∃ key events, u = { s with key := key, keyEvents := events }) ∧ (s.keyEvents = [] → u = s) ∧
      ((∃ v, t = u.setV x v) ∨ t = { u with pc := u.pc - 2 }) := by
  refine ⟨(scanKeys (List.finRange 16) s).2, scanKeys_keeps _ s, fun hno => by rw [scanKeys_none hno], ?_⟩
  cases hscan : scanKeys (List.finRange 16) s with
  | mk found u =>
    cases found with
    | some k =>
      rw [exec_ldVxK_of_found hscan] at h
      cases h
      exact .inl ⟨_, rfl⟩
    | none =>
      rw [exec_ldVxK_of_none hscan] at h
      cases h
      exact .inr rfl

/-! ### The frame of the execute phase -/

/-- The state `s` with those fields from `t` that the instruction may change (R42), and dirty and the count of draws as it leaves
them. -/
def nextFrame (i : Instr) (s t : State) : State :=
  match i with
  | .cls => { s with fb := t.fb, dirty := true }
  | .drw _ _ _ => { s with V := t.V, fb := t.fb, dirty := true }
  | .ret => { s with sp := t.sp, pc := t.pc }
  | .call _ => { s with stack := t.stack, sp := t.sp, pc := t.pc }
  | .jp _ | .jpV0 _ | .seVxKk _ _ | .sneVxKk _ _ | .seVxVy _ _ | .sneVxVy _ _ => { s with pc := t.pc }
  | .ldVxKk _ _ | .addVxKk _ _ | .ldVxVy _ _ | .orVxVy _ _ | .andVxVy _ _ | .xorVxVy _ _ => { s with V := t.V }
  | .addVxVy _ _ | .subVxVy _ _ | .shrVx _ _ | .subnVxVy _ _ | .shlVx _ _ => { s with V := t.V }
  | .ldVxDt _ | .ldVxI _ => { s with V := t.V }
  | .rnd _ _ => { s with V := t.V, rndDraws := s.rndDraws + 1 }
  | .skp _ | .sknp _ => { s with key := t.key, keyEvents := t.keyEvents, pc := t.pc }
  | .ldVxK _ => { s with V := t.V, key := t.key, keyEvents := t.keyEvents, pc := t.pc }
  | .ldDtVx _ => { s with DT := t.DT }
  | .ldStVx _ => { s with ST := t.ST }
  | .ldI _ | .addI _ | .ldF _ => { s with I := t.I }
  | .ldB _ | .ldIVx _ => { s with mem := t.mem }
  | .nop _ => s

/-- An instruction that completes changes nothing but the fields of its frame. -/
theorem exec_next_frame {i : Instr} {s t : State} (h : exec i s = .next t) : t = nextFrame i s t := by
  cases i with
  | ret =>
    obtain ⟨-, rfl⟩ := exec_ret_next h
    rfl
  | call nnn =>
    obtain ⟨-, rfl⟩ := exec_call_next h
    rfl
  | seVxKk | sneVxKk | seVxVy | sneVxVy =>
    cases h
    exact skipIf_frame s _
  | addVxVy | subVxVy | shrVx | subnVxVy | shlVx => exact (flagRow_next h).1
  | drw => exact (exec_drw_next h).1
  | skp | sknp =>
    cases h
    exact skipIf_deliverKeys_frame s _
  | ldVxK x =>
    obtain ⟨u, ⟨key, events, rfl⟩, -, ⟨v, rfl⟩ | rfl⟩ := exec_ldVxK_cases h
    · rfl
    · rfl
  | ldB | ldIVx => exact (storeAtI_next h).1
  | ldVxI => exact (loadRegs_frame (finish_next h)).1
  | cls | jp | jpV0 | ldVxKk | addVxKk | ldVxVy | orVxVy | andVxVy | xorVxVy | rnd | ldI | addI | ldF | ldVxDt | ldDtVx
    | ldStVx | nop =>
    cases h
    rfl

/-! ### Control: I, pc, sp and the stack -/

theorem nextFrame_I {i : Instr} {s t : State} (hi : writesI i = false) : (nextFrame i s t).I = s.I := by
  cases i with
  | ldI | addI | ldF => cases hi
  | _ => rfl

theorem nextFrame_pc {i : Instr} {s t : State} (hi : writesPc i = false) : (nextFrame i s t).pc = s.pc := by
  cases i with
  | ret | jp | call | jpV0 | seVxKk | sneVxKk | seVxVy | sneVxVy | skp | sknp | ldVxK => cases hi
  | _ => rfl

theorem nextFrame_stack {i : Instr} {s t : State} (hi : ∀ nnn, i ≠ .call nnn) : (nextFrame i s t).stack = s.stack := by
  cases i with
  | call nnn => exact absurd rfl (hi nnn)
  | _ => rfl

theorem nextFrame_sp {i : Instr} {s t : State} (hi : ∀ nnn, i ≠ .call nnn) (hret : i ≠ .ret) :
    (nextFrame i s t).sp = s.sp := by
  cases i with
  | call nnn => exact absurd rfl (hi nnn)
  | ret => exact absurd rfl hret
  | _ => rfl

/-- Settles O55: the four fields are in the frame of the listed instructions only. -/
theorem onlyListedInstructionsChangeControl : Obligations.OnlyListedInstructionsChangeControl := by
  intro i s t h
  have hframe := exec_next_frame h
  refine ⟨fun hi => ?_, fun hi => ?_, fun hcall => ⟨?_, fun hret => ?_⟩⟩
  · exact (congrArg State.I hframe).trans (nextFrame_I hi)
  · exact (congrArg State.pc hframe).trans (nextFrame_pc hi)
  · exact (congrArg State.stack hframe).trans (nextFrame_stack hcall)
  · exact (congrArg State.sp hframe).trans (nextFrame_sp hcall hret)

/-! ### Devices: timers, framebuffer, dirty, keys, draws and the latch -/

theorem nextFrame_DT {i : Instr} {s t : State} (hi : ∀ x, i ≠ .ldDtVx x) : (nextFrame i s t).DT = s.DT := by
  cases i with
  | ldDtVx x => exact absurd rfl (hi x)
  | _ => rfl

theorem nextFrame_ST {i : Instr} {s t : State} (hi : ∀ x, i ≠ .ldStVx x) : (nextFrame i s t).ST = s.ST := by
  cases i with
  | ldStVx x => exact absurd rfl (hi x)
  | _ => rfl

theorem nextFrame_display {i : Instr} {s t : State} (hcls : i ≠ .cls) (hdrw : ∀ x y n, i ≠ .drw x y n) :
    (nextFrame i s t).fb = s.fb ∧ (nextFrame i s t).dirty = s.dirty := by
  cases i with
  | cls => exact absurd rfl hcls
  | drw x y n => exact absurd rfl (hdrw x y n)
  | _ => exact ⟨rfl, rfl⟩

theorem nextFrame_keys {i : Instr} {s t : State} (hi : samplesKeys i = false) :
    (nextFrame i s t).key = s.key ∧ (nextFrame i s t).keyEvents = s.keyEvents := by
  cases i with
  | skp | sknp | ldVxK => cases hi
  | _ => exact ⟨rfl, rfl⟩

theorem nextFrame_rndDraws (i : Instr) (s t : State) : (nextFrame i s t).rndDraws = s.rndDraws + randomBytesUsed i := by
  cases i <;> rfl

theorem nextFrame_fault (i : Instr) (s t : State) :
    (nextFrame i s t).faulted = s.faulted ∧ (nextFrame i s t).faultDraws = s.faultDraws := by
  cases i <;> exact ⟨rfl, rfl⟩

/-- With no key event to come a sample changes nothing. -/
theorem exec_keys_of_no_events {i : Instr} {s t : State} (hno : s.keyEvents = []) (h : exec i s = .next t) :
    t.key = s.key ∧ t.keyEvents = s.keyEvents := by
  cases hi : samplesKeys i with
  | false =>
    have hframe := exec_next_frame h
    obtain ⟨hkey, hevents⟩ := nextFrame_keys (s := s) (t := t) hi
    exact ⟨(congrArg State.key hframe).trans hkey, (congrArg State.keyEvents hframe).trans hevents⟩
  | true =>
    cases i with
    | skp | sknp =>
      cases h
      simp only [keySample, deliverKeys_none hno, skipIf_key, skipIf_keyEvents, and_self]
    | ldVxK x =>
      obtain ⟨u, -, hu, ⟨v, rfl⟩ | rfl⟩ := exec_ldVxK_cases h
      · rw [hu hno]; exact ⟨rfl, rfl⟩
      · rw [hu hno]; exact ⟨rfl, rfl⟩
    | _ => cases hi

/-- Settles O56: the device fields are in the frame of the listed instructions only; a sample without events changes nothing. -/
theorem onlyListedInstructionsChangeDevices : Obligations.OnlyListedInstructionsChangeDevices := by
  intro i s t h
  have hframe := exec_next_frame h
  refine ⟨fun hi => ?_, fun hi => ?_, fun hi => ?_, fun ⟨hcls, hdrw⟩ => ?_, fun hi => ?_, ?_, ?_, ?_⟩
  · exact (congrArg State.DT hframe).trans (nextFrame_DT hi)
  · exact (congrArg State.ST hframe).trans (nextFrame_ST hi)
  · obtain rfl | ⟨x, y, n, rfl⟩ := hi
    · exact congrArg State.dirty hframe
    · exact congrArg State.dirty hframe
  · obtain ⟨hfb, hdirty⟩ := nextFrame_display (s := s) (t := t) hcls hdrw
    exact ⟨(congrArg State.fb hframe).trans hfb, (congrArg State.dirty hframe).trans hdirty⟩
  · obtain hi | hno := hi
    · obtain ⟨hkey, hevents⟩ := nextFrame_keys (s := s) (t := t) hi
      exact ⟨(congrArg State.key hframe).trans hkey, (congrArg State.keyEvents hframe).trans hevents⟩
    · exact exec_keys_of_no_events hno h
  · exact (congrArg State.rndDraws hframe).trans (nextFrame_rndDraws i s t)
  · exact (congrArg State.faulted hframe).trans (nextFrame_fault i s t).1
  · exact (congrArg State.faultDraws hframe).trans (nextFrame_fault i s t).2

/-! ### Registers -/

/-- Settles O54: by cases on the instruction, from what its row writes. -/
theorem onlyListedRegistersChange : Obligations.OnlyListedRegistersChange := by
  intro i s t h r hr
  cases i with
  | ldVxKk x | addVxKk x | ldVxVy x | orVxVy x | andVxVy x | xorVxVy x | ldVxDt x | rnd x =>
    cases h
    exact getV_setV_other _ _ (beq_eq_false_iff_ne.mp hr)
  | addVxVy | subVxVy | shrVx | subnVxVy | shlVx =>
    obtain ⟨hx, hf⟩ := Bool.or_eq_false_iff.mp hr
    exact (flagRow_next h).2 r (beq_eq_false_iff_ne.mp hx) (beq_eq_false_iff_ne.mp hf)
  | drw => exact (exec_drw_next h).2 r (beq_eq_false_iff_ne.mp hr)
  | ldVxK x =>
    obtain ⟨u, ⟨key, events, rfl⟩, -, ⟨v, rfl⟩ | rfl⟩ := exec_ldVxK_cases h
    · exact getV_setV_other _ _ (beq_eq_false_iff_ne.mp hr)
    · rfl
  | ldVxI x =>
    exact (loadRegs_frame (finish_next h)).2 r fun hmem => of_decide_eq_false hr ((mem_regsUpTo x r).mp hmem)
  | _ => exact (congrArg (fun u => State.getV u r) (exec_next_frame h) :)

/-! ### Memory -/

theorem nextFrame_mem {i : Instr} {s t : State} (hi : storeLength i = 0) : (nextFrame i s t).mem = s.mem := by
  cases i with
  | ldB | ldIVx => cases hi
  | _ => rfl

/-- A store that completes leaves every address outside its run alone. -/
theorem read_of_storeAtI_next {vs : List Byte} {s t : State} (h : storeAtI vs s = .next t) {a : Nat}
    (ha : a < effectiveAddress s 0 ∨ effectiveAddress s vs.length ≤ a) : Memory.read t.mem a = Memory.read s.mem a := by
  rw [storeBytes_ok (storeAtI_next h).2]
  exact read_writeList_outside s.mem ha

/-- Settles O57: memory is in the frame of the two stores only, which write their run of bytes. -/
theorem onlyStoresChangeMemory : Obligations.OnlyStoresChangeMemory := by
  intro i s t h a ha
  cases i with
  | ldB x => exact read_of_storeAtI_next (vs := decimalDigits (s.getV x)) h ha
  | ldIVx x => exact read_of_storeAtI_next (vs := (regsUpTo x).map s.getV) h (by rwa [length_map_regsUpTo])
  | _ => rw [exec_next_frame h, nextFrame_mem rfl]

/-! ### Completion -/

theorem exec_ldVxK_completes (x : Reg) (s : State) : ∃ t, exec (.ldVxK x) s = .next t := by
  cases hscan : scanKeys (List.finRange 16) s with
  | mk found u =>
    cases found with
    | some k => exact ⟨_, exec_ldVxK_of_found hscan⟩
    | none => exact ⟨_, exec_ldVxK_of_none hscan⟩

/-- Settles O52: the five conditions of the spec by the lemmas for each side; no other instruction can stop. -/
theorem execCompletesOrRaisesItsOwnFault : Obligations.ExecCompletesOrRaisesItsOwnFault := by
  intro i s
  cases i with
  | ret =>
    refine ⟨fun hpos => ⟨_, exec_ret_of_pos hpos⟩, fun hempty => ⟨_, exec_ret_of_empty ?_, rfl⟩⟩
    exact Nat.eq_zero_of_not_pos hempty
  | call nnn =>
    refine ⟨fun hroom => ⟨_, exec_call_of_room nnn hroom⟩, fun hfull => ⟨_, exec_call_of_full nnn ?_, rfl⟩⟩
    exact Nat.le_antisymm (Nat.le_of_lt_succ s.sp.isLt) (Nat.le_of_not_lt hfull)
  | ldB x =>
    refine ⟨fun hin => ⟨_, (exec_ldB x s).trans (storeAtI_of_fits (Nat.succ_le_succ hin))⟩, fun hout => ⟨_, exec_ldB_of_out ?_, rfl⟩⟩
    exact Nat.lt_of_not_le hout
  | ldIVx x =>
    refine ⟨fun hin => ⟨_, (exec_ldIVx x s).trans (storeAtI_of_fits ?_)⟩, fun hout => ⟨_, exec_ldIVx_of_out ?_, rfl⟩⟩
    · rw [length_map_regsUpTo]; exact Nat.succ_le_succ hin
    · exact Nat.lt_of_not_le hout
  | ldVxI x =>
    refine ⟨fun hin => ?_, fun hout => ⟨_, exec_ldVxI_of_out ?_, rfl⟩⟩
    · obtain ⟨t, hexec, -⟩ := loadRegistersReadsEach x s hin
      exact ⟨t, hexec⟩
    · exact Nat.lt_of_not_le hout
  | drw x y n =>
    refine ⟨fun hin => ⟨_, exec_drw_of_fits x y hin⟩, fun hout => ⟨_, drawFaultsAtTheFirstBadRow x y n s ?_, rfl⟩⟩
    by_contra hnone
    exact hout fun row hrow => Nat.le_of_not_lt fun h => hnone ⟨row, hrow, h⟩
  | ldVxK x => exact ⟨fun _ => exec_ldVxK_completes x s, fun h => absurd trivial h⟩
  | _ => exact ⟨fun _ => ⟨_, rfl⟩, fun h => absurd trivial h⟩

end Sys2Proof.Proofs
end

section
/-! PROOFS. The invariant of a run (10_state.md sections 5 and 6): every step and every host event keeps it. -/

namespace Sys2Proof.Proofs

open Sys2Proof.Machine Sys2Proof.Laws

/-! ### The execute phase, part by part of the invariant -/

theorem exec_keeps_wf {i : Instr} {s t : State} (hwf : Memory.wf s.mem = true) (h : exec i s = .next t) :
    Memory.wf t.mem = true := by
  cases i with
  | ldB | ldIVx => exact wf_storeBytes hwf (storeAtI_next h).2
  | _ => rw [exec_next_frame h, nextFrame_mem rfl]; exact hwf

/-- CALL pushes the advanced pc; no other instruction puts a return address in use. -/
theorem exec_keeps_returnsInRange {i : Instr} {s t : State} (hret : s.ReturnsInRange) (hpc : s.pc.toNat ≤ 0x1000)
    (h : exec i s = .next t) : t.ReturnsInRange := by
  by_cases hcall : ∃ nnn, i = .call nnn
  · obtain ⟨nnn, rfl⟩ := hcall
    obtain ⟨hroom, rfl⟩ := exec_call_next h
    intro j hj
    simp only [Fin.getElem_fin, Vector.getElem_set]
    split
    next => exact hpc
    next hne => exact hret j (by simp only at hj; omega)
  · have hnocall : ∀ nnn, i ≠ .call nnn := fun nnn e => hcall ⟨nnn, e⟩
    have hframe := exec_next_frame h
    have hstack : t.stack = s.stack := (congrArg State.stack hframe).trans (nextFrame_stack hnocall)
    have hsp : t.sp.val ≤ s.sp.val := by
      by_cases hi : i = .ret
      · subst hi
        obtain ⟨-, rfl⟩ := exec_ret_next h
        exact Nat.sub_le _ _
      · exact ((congrArg State.sp hframe).trans (nextFrame_sp hnocall hi) ▸ le_rfl)
    intro j hj
    rw [hstack]
    exact hret j (hj.trans_le hsp)

/-- A skip from an address in range stays below the bound. -/
theorem skipIf_pc_le {s : State} (c : Bool) (hpc : s.pc.toNat ≤ 0x1000) : (s.skipIf c).pc.toNat ≤ 0x10FE := by
  rw [skipIf_pc]
  split
  · bv_omega
  · omega

theorem toNat_zext12_le (nnn : Imm12) : (zext12 nnn).toNat ≤ 0x10FE := by
  have := nnn.isLt
  rw [toNat_zext12]
  omega

/-- The highest pc is that of a Bnnn with both summands at their top (R26, R103). -/
theorem exec_pc_le {i : Instr} {s t : State} (hret : s.ReturnsInRange) (hlo : 2 ≤ s.pc.toNat) (hpc : s.pc.toNat ≤ 0x1000)
    (h : exec i s = .next t) : t.pc.toNat ≤ 0x10FE := by
  cases i with
  | ret =>
    obtain ⟨hpos, rfl⟩ := exec_ret_next h
    exact (hret ⟨s.sp.val - 1, by omega⟩ (by simp only; omega)).trans (by decide)
  | jp nnn =>
    cases h
    exact toNat_zext12_le nnn
  | call nnn =>
    obtain ⟨-, rfl⟩ := exec_call_next h
    exact toNat_zext12_le nnn
  | jpV0 nnn =>
    cases h
    have hsum := toNat_jumpOffsetTarget s nnn
    have hnnn := nnn.isLt
    have hv := (s.getV 0).isLt
    simp only
    omega
  | seVxKk | sneVxKk | seVxVy | sneVxVy =>
    cases h
    exact skipIf_pc_le _ hpc
  | skp | sknp =>
    cases h
    exact skipIf_pc_le _ ((deliverKeys_pc s).symm ▸ hpc)
  | ldVxK =>
    obtain ⟨u, ⟨key, events, rfl⟩, -, ⟨v, rfl⟩ | rfl⟩ := exec_ldVxK_cases h
    · exact hpc.trans (by decide)
    · have hback : (s.pc - 2).toNat ≤ s.pc.toNat := by bv_omega
      exact hback.trans (hpc.trans (by decide))
  | _ =>
    rw [exec_next_frame h, nextFrame_pc rfl]
    exact hpc.trans (by decide)

/-! ### The step -/

/-- A step that completes has fetched an instruction within memory and executed it. -/
theorem step_next {s t : State} (h : step s = .next t) :
    s.faulted = false ∧ s.pc.toNat ≤ 0xFFE ∧ ∃ i, exec i s.advance = .next t := by
  cases hf : s.faulted with
  | true =>
    rw [step_of_faulted hf] at h
    cases h
  | false =>
    by_cases hpc : s.pc.toNat ≤ 0xFFE
    · rw [step_of_fetch_ok hf (fetch_in hpc)] at h
      exact ⟨rfl, hpc, _, h⟩
    · rw [step_of_fetch_error hf (fetch_out (Nat.lt_of_not_le hpc))] at h
      cases h

/-- Settles O59: after the fetch pc is between 2 and 0x1000, from where the execute phase keeps each part. -/
theorem stepKeepsTheInvariant : Obligations.StepKeepsTheInvariant := by
  rintro s t ⟨hwf, hret, -⟩ h
  obtain ⟨-, hpc, i, hexec⟩ := step_next h
  have hadvanced : s.advance.pc.toNat = s.pc.toNat + 2 := by
    rw [advance_pc]
    bv_omega
  have htop : s.advance.pc.toNat ≤ 0x1000 := by omega
  have hret' : s.advance.ReturnsInRange := hret
  exact ⟨exec_keeps_wf (s := s.advance) hwf hexec, exec_keeps_returnsInRange hret' htop hexec,
    fun _ => exec_pc_le hret' (by omega) htop hexec⟩

/-! ### The host's events -/

/-- What a fault leaves meets the invariant: the stack is as it was, and the latch excuses pc (R206). -/
theorem takeFault_keeps_inv {s : State} (f : Fault) (i : Option Instr) (h : s.Inv) : (s.takeFault f i).Inv := by
  obtain ⟨hwf, hret, -⟩ := h
  have hframe := takeFault_frame s f i
  refine ⟨wf_takeFault f i hwf, ?_, fun hf => ?_⟩
  · rw [hframe]
    exact hret
  · rw [takeFault_faulted] at hf
    cases hf

theorem stepHost_keeps_inv {s t : State} {r : HostResult} (hinv : s.Inv) (h : stepHost s = .ok r t) : t.Inv := by
  unfold stepHost at h
  split at h
  next hstep =>
    cases h
    exact stepKeepsTheInvariant s t hinv hstep
  next =>
    cases h
    exact takeFault_keeps_inv _ _ hinv
  next => cases h

theorem loadProgram_keeps_inv {s t : State} {r : HostResult} {bytes : List Byte} (hinv : s.Inv)
    (h : hostApplyReady (.loadProgram bytes) s = .ok r t) : t.Inv := by
  obtain ⟨hwf, hret, hpc⟩ := hinv
  unfold hostApplyReady at h
  by_cases hfits : bytes.length ≤ 3584
  · simp only [loadProgram_of_fits s hfits] at h
    cases h
    exact ⟨wf_writeList hwf (program_end_le hfits), hret, hpc⟩
  · simp only [loadProgram_of_too_long s (Nat.lt_of_not_le hfits)] at h
    cases h

theorem resetCore_inv (core : Option State) : (resetCore core).Inv := by
  cases core with
  | none => exact resetMeetsTheInvariant
  | some s => exact resetMeetsTheInvariant

theorem hostApplyReady_keeps_inv {op : HostOp} {s t : State} {r : HostResult} (hinv : s.Inv)
    (h : hostApplyReady op s = .ok r t) : t.Inv := by
  cases op with
  | reset =>
    cases h
    exact resetCore_inv (some s)
  | loadProgram bytes => exact loadProgram_keeps_inv hinv h
  | step => exact stepHost_keeps_inv hinv h
  | tickTimers | setKeyDown | setKeyUp | isSoundActive | consumeDirtyFramebuffer | keysDuringSteps =>
    cases h
    exact hinv

/-- Settles O60: by cases on the event; only a step, a load and a reset touch what the invariant speaks of. -/
theorem everyHostEventKeepsTheInvariant : Obligations.EveryHostEventKeepsTheInvariant := by
  intro op core r t hinv h
  cases core with
  | some s => exact hostApplyReady_keeps_inv (hinv s rfl) h
  | none =>
    cases op with
    | reset =>
      cases h
      exact resetCore_inv none
    | _ => cases h

end Sys2Proof.Proofs
end

section
/-! PROOFS. What a fault leaves outside its footprint (60_exceptions.md section 2, R206). -/

namespace Sys2Proof.Proofs

open Sys2Proof.Machine Sys2Proof.Laws

section
variable {s : State} {f : Fault} {i : Option Instr}

theorem takeFault_getV_ne {r : Reg} (h : (s.takeFault f i).getV r ≠ s.getV r) :
    (∃ x y n, i = some (.drw x y n) ∧ r = vF) ∨ (∃ x, i = some (.ldVxI x) ∧ r.val ≤ x.val) := by
  unfold State.takeFault at h
  simp only at h
  split at h
  next x y n =>
    refine .inl ⟨x, y, n, rfl, ?_⟩
    by_contra hr
    exact h (getV_setV_other s _ hr)
  next x =>
    by_cases hr : r ≤ x
    · exact .inr ⟨x, rfl, hr⟩
    · exact absurd (by simp [State.getV, hr]) h
  all_goals exact absurd rfl h

/-- A byte that a faulting store leaves unspecified is one it stores, and in range. -/
theorem unspecifiedBytes_read_ne {d : Nat} {len a : Nat}
    (h : Memory.read (unspecifiedBytes d s.mem s.I.toNat len) a ≠ Memory.read s.mem a) :
    effectiveAddress s 0 ≤ a ∧ a < effectiveAddress s len ∧ a ≤ 4095 := by
  by_contra hout
  refine h (read_unspecifiedBytes_outside d s.mem ?_)
  simp only [effectiveAddress, Config.memSize] at hout ⊢
  omega

theorem takeFault_read_ne {a : Nat} (h : Memory.read (s.takeFault f i).mem a ≠ Memory.read s.mem a) :
    ∃ j, i = some j ∧ effectiveAddress s 0 ≤ a ∧ a < effectiveAddress s (storeLength j) ∧ a ≤ 4095 := by
  unfold State.takeFault at h
  simp only at h
  split at h
  case h_3 x => exact ⟨.ldB x, rfl, unspecifiedBytes_read_ne h⟩
  case h_4 x => exact ⟨.ldIVx x, rfl, unspecifiedBytes_read_ne h⟩
  all_goals exact absurd rfl h

theorem takeFault_fb_ne {cx : Fin 64} {cy : Fin 32} (h : (s.takeFault f i).fb.get cx cy ≠ s.fb.get cx cy) :
    ∃ x y n, i = some (.drw x y n) ∧ spriteCovers s x y n cx.val cy.val = true := by
  unfold State.takeFault at h
  simp only at h
  split at h
  next x y n =>
    refine ⟨x, y, n, rfl, ?_⟩
    by_contra hno
    exact h (by simp [Framebuffer.get, hno])
  all_goals exact absurd rfl h

theorem takeFault_dirty_ne (h : (s.takeFault f i).dirty ≠ s.dirty) : ∃ x y n, i = some (.drw x y n) := by
  unfold State.takeFault at h
  simp only at h
  split at h
  next x y n => exact ⟨x, y, n, rfl⟩
  all_goals exact absurd rfl h

end

/-- Settles O53: the state that a faulting step leaves is `takeFault` of the state before, field by field. -/
theorem faultLeavesAllButTheFootprint : Obligations.FaultLeavesAllButTheFootprint := by
  intro s t f h
  obtain ⟨-, rfl⟩ := stepHost_fault h
  have hframe := takeFault_frame s f (fetchedInstr s)
  exact ⟨takeFault_faulted .., (congrArg State.I hframe :), (congrArg State.stack hframe :), (congrArg State.sp hframe :),
    (congrArg State.DT hframe :), (congrArg State.ST hframe :), (congrArg State.key hframe :), fun _ => takeFault_getV_ne,
    fun _ => takeFault_read_ne, fun _ _ => takeFault_fb_ne, takeFault_dirty_ne⟩

end Sys2Proof.Proofs
end

section
/-! PROOFS. No instruction reads dirty or ST (10_state.md sections 7 and 8): a run of it from a state with other values in these
two fields differs in these two fields only. -/

namespace Sys2Proof.Proofs

open Sys2Proof.Machine Sys2Proof.Laws

/-- The state with other values in the two fields that only the host reads. -/
def withDirtySound (d : Bool) (v : Byte) (s : State) : State := { s with dirty := d, ST := v }

/-- Two answers that a program cannot tell apart: next states that differ in dirty and ST at most, or the same fault. -/
def AlikeForPrograms (a a' : Answer) : Prop :=
  (∀ t, a = .next t → ∃ d' v', a' = .next { t with dirty := d', ST := v' }) ∧ (∀ f, a = .fault f → a' = .fault f)

theorem alike_next (d : Bool) (v : Byte) (t : State) : AlikeForPrograms (.next t) (.next (withDirtySound d v t)) := by
  refine ⟨fun u h => ?_, fun _ h => (nomatch h)⟩
  cases h
  exact ⟨d, v, rfl⟩

theorem alike_fault (f : Fault) : AlikeForPrograms (.fault f) (.fault f) :=
  ⟨fun _ h => (nomatch h), fun _ h => h⟩

theorem alike_finish (d : Bool) (v : Byte) (e : Except Fault State) :
    AlikeForPrograms (finish e) (finish (e.map (withDirtySound d v))) := by
  cases e with
  | ok t => exact alike_next d v t
  | error f => exact alike_fault f

/-! ### The shared operations do not read the two fields -/

section
variable (d : Bool) (v : Byte)

@[simp] theorem withDirtySound_mem (s : State) : (withDirtySound d v s).mem = s.mem := rfl

@[simp] theorem withDirtySound_fb (s : State) : (withDirtySound d v s).fb = s.fb := rfl

theorem skipIf_withDirtySound (s : State) (c : Bool) :
    (withDirtySound d v s).skipIf c = withDirtySound d v (s.skipIf c) := by
  cases c <;> rfl

theorem deliverKeys_withDirtySound (s : State) : deliverKeys (withDirtySound d v s) = withDirtySound d v (deliverKeys s) := by
  cases hevents : s.keyEvents with
  | nil => rw [deliverKeys_none hevents, deliverKeys_none (s := withDirtySound d v s) hevents]
  | cons now later =>
    rw [deliverKeys_some hevents, deliverKeys_some (s := withDirtySound d v s) hevents]
    rfl

theorem keySample_withDirtySound (s : State) (k : Reg) :
    keySample (withDirtySound d v s) k = ((keySample s k).1, withDirtySound d v (keySample s k).2) := by
  simp only [keySample, deliverKeys_withDirtySound]
  rfl

theorem scanKeys_withDirtySound (ks : List Reg) (s : State) :
    scanKeys ks (withDirtySound d v s) = ((scanKeys ks s).1, withDirtySound d v (scanKeys ks s).2) := by
  induction ks generalizing s with
  | nil => rfl
  | cons k ks ih =>
    cases hk : (keySample s k).1 with
    | true => simp only [scanKeys, keySample_withDirtySound, hk, if_true]
    | false => simp only [scanKeys, keySample_withDirtySound, hk, Bool.false_eq_true, if_false, ih]

theorem loadRegs_withDirtySound (base : Nat) (rs : List Reg) (s : State) :
    loadRegs base rs (withDirtySound d v s) = (loadRegs base rs s).map (withDirtySound d v) := by
  induction rs generalizing s with
  | nil => rfl
  | cons r rs ih =>
    simp only [loadRegs, withDirtySound_mem]
    cases readMem (.readOob (base + r.val)) s.mem (base + r.val) with
    | ok b => exact ih (s.setV r b)
    | error f => rfl

theorem drawCell_withDirtySound (cx : Fin 64) (cy : Fin 32) (b : Bool) (s : State) :
    drawCell cx cy b (withDirtySound d v s) = withDirtySound d v (drawCell cx cy b s) := by
  cases hcollides : (s.fb.get cx cy && !(s.fb.get cx cy ^^ b)) with
  | true => simp only [drawCell, withDirtySound_fb, hcollides, if_true]; rfl
  | false => simp only [drawCell, withDirtySound_fb, hcollides, Bool.false_eq_true, if_false]; rfl

theorem drawRow_withDirtySound (s0 s0' : State) (x y : Reg) (row : Nat) (b : Byte) (s : State) :
    drawRow .sequential s0' x y row b (withDirtySound d v s) = withDirtySound d v (drawRow .sequential s0 x y row b s) :=
  List.foldl_hom (withDirtySound d v) fun t col => drawCell_withDirtySound d v _ _ (spritePixel b col) t

theorem drawRows_withDirtySound (s0 s0' : State) (x y : Reg) (rows : List Nat) (s : State) :
    drawRows .sequential s0' x y rows (withDirtySound d v s) =
      (drawRows .sequential s0 x y rows s).map (withDirtySound d v) := by
  induction rows generalizing s with
  | nil => rfl
  | cons row rows ih =>
    have haddr : effectiveAddress (withDirtySound d v s) row = effectiveAddress s row := rfl
    simp only [drawRows, withDirtySound_mem, haddr, drawRow_withDirtySound d v s0 s0']
    cases readMem (.readOob (effectiveAddress s row)) s.mem (effectiveAddress s row) with
    | ok b => exact ih _
    | error f => rfl

/-- A draw sets dirty whatever it was. -/
theorem drawSprite_withDirtySound (x y : Reg) (n : Nibble) (s : State) :
    drawSprite .sequential x y n (withDirtySound d v s) = (drawSprite .sequential x y n s).map (withDirtySound true v) := by
  have hrows := drawRows_withDirtySound d v s (withDirtySound d v s) x y (List.range n.toNat) (s.setV vF 0)
  have hstart : (withDirtySound d v s).setV vF 0 = withDirtySound d v (s.setV vF 0) := rfl
  rw [drawSprite, hstart, hrows, drawSprite]
  cases drawRows .sequential s x y (List.range n.toNat) (s.setV vF 0) with
  | ok t => rfl
  | error f => rfl

/-! ### The instructions that can answer more than one way -/

theorem alike_storeAtI (vs : List Byte) (s : State) :
    AlikeForPrograms (storeAtI vs s) (storeAtI vs (withDirtySound d v s)) := by
  have haddr : effectiveAddress (withDirtySound d v s) 0 = effectiveAddress s 0 := rfl
  simp only [storeAtI, withDirtySound_mem, haddr]
  cases storeBytes s.mem (effectiveAddress s 0) vs with
  | ok m => exact alike_next d v { s with mem := m }
  | error f => exact alike_fault f

theorem alike_ret (s : State) : AlikeForPrograms (exec .ret s) (exec .ret (withDirtySound d v s)) := by
  by_cases hpos : 0 < s.sp.val
  · rw [exec_ret_of_pos hpos, exec_ret_of_pos (s := withDirtySound d v s) hpos]
    exact alike_next d v _
  · have hempty : s.sp.val = 0 := Nat.eq_zero_of_not_pos hpos
    rw [exec_ret_of_empty hempty, exec_ret_of_empty (s := withDirtySound d v s) hempty]
    exact alike_fault _

theorem alike_call (nnn : Imm12) (s : State) :
    AlikeForPrograms (exec (.call nnn) s) (exec (.call nnn) (withDirtySound d v s)) := by
  by_cases hroom : s.sp.val < 16
  · rw [exec_call_of_room nnn hroom, exec_call_of_room nnn (s := withDirtySound d v s) hroom]
    exact alike_next d v _
  · have hfull : s.sp.val = 16 := by omega
    rw [exec_call_of_full nnn hfull, exec_call_of_full nnn (s := withDirtySound d v s) hfull]
    exact alike_fault _

theorem alike_ldVxK (x : Reg) (s : State) :
    AlikeForPrograms (exec (.ldVxK x) s) (exec (.ldVxK x) (withDirtySound d v s)) := by
  have hscan' := scanKeys_withDirtySound d v (List.finRange 16) s
  cases hscan : scanKeys (List.finRange 16) s with
  | mk found t =>
    rw [hscan] at hscan'
    cases found with
    | some k =>
      rw [exec_ldVxK_of_found hscan, exec_ldVxK_of_found hscan']
      exact alike_next d v _
    | none =>
      rw [exec_ldVxK_of_none hscan, exec_ldVxK_of_none hscan']
      exact alike_next d v _

end

theorem exec_withDirtySound (i : Instr) (d : Bool) (v : Byte) (s : State) :
    AlikeForPrograms (exec i s) (exec i (withDirtySound d v s)) := by
  cases i with
  | ret => exact alike_ret d v s
  | call nnn => exact alike_call d v nnn s
  | ldB x => exact alike_storeAtI d v (decimalDigits (s.getV x)) s
  | ldIVx x => exact alike_storeAtI d v ((regsUpTo x).map s.getV) s
  | ldVxI x =>
    have haddr : effectiveAddress (withDirtySound d v s) 0 = effectiveAddress s 0 := rfl
    rw [exec_ldVxI, exec_ldVxI, haddr, loadRegs_withDirtySound]
    exact alike_finish d v _
  | drw x y n =>
    rw [exec_drw, exec_drw, drawSprite_withDirtySound]
    exact alike_finish true v _
  | ldVxK x => exact alike_ldVxK d v x s
  | skp x =>
    rw [exec_skp rfl, exec_skp (s := withDirtySound d v s) rfl, deliverKeys_withDirtySound, skipIf_withDirtySound]
    exact alike_next d v _
  | sknp x =>
    rw [exec_sknp rfl, exec_sknp (s := withDirtySound d v s) rfl, deliverKeys_withDirtySound, skipIf_withDirtySound]
    exact alike_next d v _
  | seVxKk | sneVxKk | seVxVy | sneVxVy =>
    simp only [exec, execSeVxKk, execSneVxKk, execSeVxVy, execSneVxVy, skipIf_withDirtySound]
    exact alike_next d v _
  | cls => exact alike_next true v { s with fb := Framebuffer.blank, dirty := true }
  | ldStVx x => exact alike_next d (s.getV x) { s with ST := s.getV x }
  | _ => exact alike_next d v _

/-- Settles O58: by cases on the instruction; 00E0 and Dxyn overwrite dirty and Fx18 overwrites ST, the rest carry both over. -/
theorem dirtyAndSoundAreInvisibleToPrograms : Obligations.DirtyAndSoundAreInvisibleToPrograms := fun i s d v =>
  exec_withDirtySound i d v s

end Sys2Proof.Proofs
end
